-- ==== Sys2Proof/Word.lean ====
section
/-! DEFINITION. The number type of the machine (00_scope R9): a word is an integer in the range `MIN .. MAX`
of the width `W`; the spec numbers no bits of a word, so it is an integer here, not a bit vector. Log entry 15. -/

namespace Sys2Proof

/-- A word (00_scope R9): an integer that `isWord W` holds of. -/
abbrev Word := Int

/-- A byte of the source stream (31_decoder_fsm R120). -/
abbrev Byte := BitVec 8

/-- `2 ^ (W - 1)`, the magnitude of `MIN` (00_scope R9). -/
abbrev halfRange (W : Nat) : Int := ((2 ^ (W - 1) : Nat) : Int)

/-- `MIN = -2 ^ (W - 1)` (00_scope R9). -/
abbrev minWord (W : Nat) : Int := -halfRange W

/-- `MAX = 2 ^ (W - 1) - 1` (00_scope R9). -/
abbrev maxWord (W : Nat) : Int := halfRange W - 1

/-- `v` is a word of width `W` (00_scope R9). -/
abbrev isWord (W : Nat) (v : Int) : Prop := minWord W ≤ v ∧ v ≤ maxWord W

end Sys2Proof
end

