-- ==== Sys2Proof/Machine/Flags.lean ====
section
/-! DEFINITION. The machine has no flags and no condition codes (10_state R46): no instruction sets or reads one. The
only conditions it tests are the two of the conditional jumps, on the word they pop. -/

namespace Sys2Proof.Machine

/-- The test of `JumpIfZero`: `x = 0` (43_flow R234). -/
def testZero (x : Int) : Bool := decide (x = 0)

/-- The test of `JumpIfNegative`: `x < 0`, a signed comparison (43_flow R235). -/
def testNegative (x : Int) : Bool := decide (x < 0)

end Sys2Proof.Machine
end

