-- ==== Sys2Proof/Machine/IntMap.lean ====
section
/-! DEFINITION. A partial map from integers, as plain data in one canonical form: a list of (key, value) with keys
strictly rising. The heap (10_state R36) and the label table (10_state R30) are such maps; an unlisted key is not
in the map, and every key in the map is listed. -/

namespace Sys2Proof

/-- A partial map from integers. -/
abbrev IntMap (α : Type) := List (Int × α)

/-- The canonical form: keys strictly rising, so that equal maps are equal lists. -/
abbrev IntMap.wf {α : Type} (m : IntMap α) : Prop := m.Pairwise fun x y => x.1 < y.1

/-- The value at a key, `none` where the key is not in the map (00_scope R10 `lookup`). -/
def IntMap.get? {α : Type} : IntMap α → Int → Option α
  | [], _ => none
  | (k, v) :: m, a => if k = a then some v else IntMap.get? m a

/-- The map with `a` bound to `v`, whatever it was bound to before; the canonical form is kept. -/
def IntMap.set {α : Type} : IntMap α → Int → α → IntMap α
  | [], a, v => [(a, v)]
  | (k, w) :: m, a, v =>
    if a < k then (a, v) :: (k, w) :: m
    else if a = k then (a, v) :: m
    else (k, w) :: IntMap.set m a v

end Sys2Proof
end

