-- ==== Sys2Proof/Config.lean ====
section
/-! DEFINITION. What an implementation fixes (00_scope R6: "A model should take them as configuration fields,
not as constants") and the free value the spec leaves open (44_io R266). The parameters are a record that State
holds and no step changes, so that a claim about every state is a claim about every setting. -/

namespace Sys2Proof

/-- `CRLF_POLICY` (30_encoding R92). -/
inductive CrlfPolicy
  | independent
  | merge
  deriving DecidableEq, Repr

/-- `HEAP_DEFAULT` (20_memory R66). -/
inductive HeapDefault
  | fault
  | zero
  deriving DecidableEq, Repr

/-- `DIVMOD` (41_arithmetic R204, R205). -/
inductive DivMod
  | truncating
  | flooring
  deriving DecidableEq, Repr

/-- `LABEL_RESOLVE` (43_flow R230). -/
inductive LabelResolve
  | onTaken
  | onExecute
  deriving DecidableEq, Repr

/-- When the decoder reports a numeric operand that is no word: at the terminator (31_decoder_fsm R142), or, as
R141 allows "a hardware accumulator of `W` bits", as soon as the magnitude exceeds `2 ^ (W - 1)`. Log entry 11. -/
inductive RangeCheck
  | atTerminator
  | early
  deriving DecidableEq, Repr

/-- The parameters of 00_scope R6, with R6's defaults; a capacity is `none` where R6 says `inf`. -/
structure Config where
  /-- `W`, the width of a word. -/
  W : Nat := 64
  /-- `STACK_CAP`. -/
  stackCap : Option Nat := none
  /-- `CALL_CAP`. -/
  callCap : Option Nat := none
  /-- `HEAP_CAP`. -/
  heapCap : Option Nat := none
  /-- `PROG_CAP`. -/
  progCap : Option Nat := none
  /-- `LABEL_CAP`. -/
  labelCap : Option Nat := none
  /-- `LABEL_BITS`. -/
  labelBits : Option Nat := none
  /-- `CRLF_POLICY`. -/
  crlf : CrlfPolicy := .independent
  /-- `HEAP_DEFAULT`. -/
  heapDefault : HeapDefault := .fault
  /-- `DIVMOD`. -/
  divmod : DivMod := .truncating
  /-- `LABEL_RESOLVE`. -/
  labelResolve : LabelResolve := .onTaken
  /-- The accumulator realisation R141 leaves to the implementation. -/
  rangeCheck : RangeCheck := .atTerminator
  /-- `EXIT_OK`. -/
  exitOk : Int := 0
  /-- `EXIT_FAIL`. -/
  exitFail : Int := 1
  deriving DecidableEq, Repr

/-- Every parameter at its default (00_scope R6). -/
def Config.standard : Config := {}

/-- The legal values of 00_scope R6 and R7. Log entry 18. -/
abbrev Config.wf (c : Config) : Prop :=
  22 ≤ c.W ∧ c.exitOk = 0 ∧ c.exitFail ≠ 0 ∧
  (∀ n ∈ c.stackCap, 0 < n) ∧ (∀ n ∈ c.callCap, 0 < n) ∧ (∀ n ∈ c.heapCap, 0 < n) ∧
  (∀ n ∈ c.progCap, 0 < n) ∧ (∀ n ∈ c.labelCap, 0 < n) ∧ (∀ n ∈ c.labelBits, 0 < n)

/-- The runtime input `IN` (10_state R38): the characters delivered and not yet consumed, each a code point, and
whether the end-of-stream mark stands after them. -/
structure InStream where
  chars : List Nat
  ended : Bool
  deriving DecidableEq, Repr, Inhabited

/-- FREE VALUE (44_io R266, 93_implementation_defined U16: "any value"): the content of `IN` after an error raised
by `InChar` or `InNum`, at the n-th such error. It has no body: nothing can be proved of it. Log entry 4. -/
opaque Config.freeInput : Nat → InStream

end Sys2Proof
end

