-- ==== Sys2Proof/Syntax.lean ====
section
/-! DEFINITION. The syntax of the machine: the three symbols (00_scope R8), the families (30_encoding R94), the 24
opcodes and instructions (30_encoding R100) and the error kinds (60_exceptions R281). -/

namespace Sys2Proof

/-- A significant symbol (00_scope R8): space, tab, line terminator. -/
inductive Sym
  | S
  | T
  | L
  deriving DecidableEq, Repr

/-- An instruction family (30_encoding R94, 10_state R23). -/
inductive Family
  | stack
  | arith
  | heap
  | flow
  | io
  deriving DecidableEq, Repr

/-- The 24 opcodes (30_encoding R100), the values of `D.op` (10_state R25). -/
inductive Opcode
  | push | duplicate | copy | swap | discard | slide
  | add | sub | mul | div | mod
  | store | retrieve
  | mark | call | jump | jumpIfZero | jumpIfNegative | ret | endProg
  | outChar | outNum | inChar | inNum
  deriving DecidableEq, Repr

/-- An instruction: the pair (opcode, operand) of 10_state R29, one constructor per row of 30_encoding R100.
The operand of `push`, `copy`, `slide` is a number, that of the five label instructions a label. -/
inductive Instr
  /-- `Push(n)`, row 1. -/
  | push (n : Int)
  /-- `Duplicate`, row 2. -/
  | duplicate
  /-- `Copy(n)`, row 3. -/
  | copy (n : Int)
  /-- `Swap`, row 4. -/
  | swap
  /-- `Discard`, row 5. -/
  | discard
  /-- `Slide(n)`, row 6. -/
  | slide (n : Int)
  /-- `Add`, row 7. -/
  | add
  /-- `Sub`, row 8. -/
  | sub
  /-- `Mul`, row 9. -/
  | mul
  /-- `Div`, row 10. -/
  | div
  /-- `Mod`, row 11. -/
  | mod
  /-- `Store`, row 12. -/
  | store
  /-- `Retrieve`, row 13. -/
  | retrieve
  /-- `Mark(l)`, row 14. -/
  | mark (l : Int)
  /-- `Call(l)`, row 15. -/
  | call (l : Int)
  /-- `Jump(l)`, row 16. -/
  | jump (l : Int)
  /-- `JumpIfZero(l)`, row 17. -/
  | jumpIfZero (l : Int)
  /-- `JumpIfNegative(l)`, row 18. -/
  | jumpIfNegative (l : Int)
  /-- `Return`, row 19. -/
  | ret
  /-- `End`, row 20. -/
  | endProg
  /-- `OutChar`, row 21. -/
  | outChar
  /-- `OutNum`, row 22. -/
  | outNum
  /-- `InChar`, row 23. -/
  | inChar
  /-- `InNum`, row 24. -/
  | inNum
  deriving DecidableEq, Repr

/-- The error kinds of 60_exceptions R281; `noError` is its code 0. `badImpSelector` is raised by no rule (R282). -/
inductive ErrKind
  | noError
  | badImpSelector | badOpcodeSelector | missingSign | unexpectedEOF | operandRange
  | programCapacity | labelCapacity
  | stackUnderflow | indexOutOfRange | heapKeyError | callStackUnderflow | divisionByZero
  | unresolvedLabel | inputExhausted | parseError
  | stackOverflow | callStackOverflow | heapCapacity
  deriving DecidableEq, Repr

end Sys2Proof
end

