-- ==== Sys2Proof/WellFormed.lean ====
section
/-! DEFINITION. Which instructions the decoder can put into `P` under a configuration: the operand of `Push`,
`Copy`, `Slide` is a word (30_encoding R97), a label has at most `LABEL_BITS` magnitude bits (31_decoder_fsm R141). -/

namespace Sys2Proof

/-- A label's magnitude fits the finite `LABEL_BITS` (31_decoder_fsm R141); no bound when it is `inf`. -/
abbrev labelFits (cap : Option Nat) (l : Int) : Prop := ∀ k ∈ cap, l.natAbs < 2 ^ k

/-- The NUMBER operand of an instruction of format FN (30_encoding R93). -/
def Instr.number? : Instr → Option Int
  | .push n => some n
  | .copy n => some n
  | .slide n => some n
  | .mark _ | .call _ | .jump _ | .jumpIfZero _ | .jumpIfNegative _ => none
  | .duplicate | .swap | .discard | .add | .sub | .mul | .div | .mod | .store | .retrieve => none
  | .ret | .endProg | .outChar | .outNum | .inChar | .inNum => none

/-- The LABEL operand of an instruction of format FL (30_encoding R93). -/
def Instr.label? : Instr → Option Int
  | .mark l => some l
  | .call l => some l
  | .jump l => some l
  | .jumpIfZero l => some l
  | .jumpIfNegative l => some l
  | .push _ | .copy _ | .slide _ => none
  | .duplicate | .swap | .discard | .add | .sub | .mul | .div | .mod | .store | .retrieve => none
  | .ret | .endProg | .outChar | .outNum | .inChar | .inNum => none

/-- The instruction's operand is one the encoding admits (30_encoding R97, R104). -/
abbrev Instr.wf (c : Config) (i : Instr) : Prop :=
  (∀ n ∈ i.number?, isWord c.W n) ∧ (∀ l ∈ i.label?, labelFits c.labelBits l)

end Sys2Proof
end

