-- ==== Sys2Proof/Decode.lean ====
section
/-! DEFINITION. The tokenizer and the decoder state machine (31_decoder_fsm), total on every byte and rejecting by
the error kinds of 60_exceptions R281, then an encoder written from the same table (30_encoding R100, R110). -/

namespace Sys2Proof

/-! ### The opcode table -/

/-- The opcodes with a NUMBER operand, format FN (30_encoding R93). -/
def Opcode.isNumber : Opcode → Bool
  | .push | .copy | .slide => true
  | _ => false

/-- The opcodes with a LABEL operand, format FL (30_encoding R93). -/
def Opcode.isLabel : Opcode → Bool
  | .mark | .call | .jump | .jumpIfZero | .jumpIfNegative => true
  | _ => false

/-- The instruction of an opcode and an operand (10_state R29); the 16 opcodes of format F0 do not read `v`. -/
def Opcode.instr (op : Opcode) (v : Int) : Instr :=
  match op with
  | .push => .push v
  | .duplicate => .duplicate
  | .copy => .copy v
  | .swap => .swap
  | .discard => .discard
  | .slide => .slide v
  | .add => .add
  | .sub => .sub
  | .mul => .mul
  | .div => .div
  | .mod => .mod
  | .store => .store
  | .retrieve => .retrieve
  | .mark => .mark v
  | .call => .call v
  | .jump => .jump v
  | .jumpIfZero => .jumpIfZero v
  | .jumpIfNegative => .jumpIfNegative v
  | .ret => .ret
  | .endProg => .endProg
  | .outChar => .outChar
  | .outNum => .outNum
  | .inChar => .inChar
  | .inNum => .inNum

/-- The opcode of an instruction. -/
def Instr.opcode : Instr → Opcode
  | .push _ => .push
  | .duplicate => .duplicate
  | .copy _ => .copy
  | .swap => .swap
  | .discard => .discard
  | .slide _ => .slide
  | .add => .add
  | .sub => .sub
  | .mul => .mul
  | .div => .div
  | .mod => .mod
  | .store => .store
  | .retrieve => .retrieve
  | .mark _ => .mark
  | .call _ => .call
  | .jump _ => .jump
  | .jumpIfZero _ => .jumpIfZero
  | .jumpIfNegative _ => .jumpIfNegative
  | .ret => .ret
  | .endProg => .endProg
  | .outChar => .outChar
  | .outNum => .outNum
  | .inChar => .inChar
  | .inNum => .inNum

/-- The operand of an instruction, where its format has one (30_encoding R93). -/
def Instr.operand? (i : Instr) : Option Int :=
  match i.number? with
  | some n => some n
  | none => i.label?

/-- The label a `Mark` declares (31_decoder_fsm R144); `none` for every other instruction. -/
def Instr.markLabel? : Instr → Option Int
  | .mark l => some l
  | _ => none

/-! ### The tokenizer -/

/-- The four significant byte values (30_encoding R90). -/
def tokenizeByte (b : Byte) : Option Sym :=
  if b = 0x20 then some .S
  else if b = 0x09 then some .T
  else if b = 0x0A then some .L
  else if b = 0x0D then some .L
  else none

/-- One byte tokenized under a line-terminator policy (31_decoder_fsm R122): the symbol, or nothing, and the next
value of `D.cr`, which only `merge` writes. Log entry 8. -/
def tokenize (policy : CrlfPolicy) (cr : Bool) (b : Byte) : Option Sym × Bool :=
  match policy with
  | .independent => (tokenizeByte b, cr)
  | .merge => (if b = 0x0A ∧ cr = true then none else tokenizeByte b, decide (b = 0x0D))

/-! ### The decoder's state machine -/

/-- `D.stage` (10_state R22). -/
inductive Stage
  | imp
  | opcode
  | sign
  | bits
  deriving DecidableEq, Repr

/-- The decoder's state (10_state R22 to R28). -/
structure Decoder where
  /-- `D.stage` (R22). -/
  stage : Stage
  /-- `D.imp` (R23); `none` is NONE. -/
  imp : Option Family
  /-- `D.sel` (R24); `none` is the empty string. -/
  sel : Option Sym
  /-- `D.op` (R25); `none` is NONE. -/
  op : Option Opcode
  /-- `D.neg` (R26). -/
  neg : Bool
  /-- `D.mag` (R26). -/
  mag : Nat
  /-- `D.nbits` (R26). -/
  nbits : Nat
  /-- `D.offset` (R27). -/
  offset : Nat
  /-- `D.cr` (R28); it stays false where CRLF_POLICY is `independent`, under which it does not exist. -/
  cr : Bool
  deriving DecidableEq, Repr

/-- The decoder after reset (10_state R20). -/
def Decoder.reset : Decoder :=
  { stage := .imp, imp := none, sel := none, op := none, neg := false, mag := 0, nbits := 0, offset := 0, cr := false }

/-- What one symbol makes the decoder do (31_decoder_fsm R124). -/
inductive Move
  /-- Go on in the given state. -/
  | goOn (d : Decoder)
  /-- Complete an instruction (R143). -/
  | complete (i : Instr)
  /-- Raise a decode error. -/
  | error (k : ErrKind)
  /-- The state is none of the 18 of R147: no rule says what it does. -/
  | unreachable
  deriving DecidableEq, Repr

/-- A capacity is reached: `n` values are held and `cap` is finite and at most `n` (10_state R34, R35, R37). Log
entry 10. -/
def atCap (cap : Option Nat) (n : Nat) : Bool :=
  match cap with
  | none => false
  | some c => decide (c ≤ n)

/-- Stage `IMP` (31_decoder_fsm R125). -/
def Decoder.impStage (d : Decoder) (s : Sym) : Move :=
  match d.sel, s with
  | none, .S => .goOn { d with imp := some .stack, stage := .opcode }
  | none, .T => .goOn { d with sel := some .T }
  | none, .L => .goOn { d with imp := some .flow, stage := .opcode }
  | some .T, .S => .goOn { d with imp := some .arith, sel := none, stage := .opcode }
  | some .T, .T => .goOn { d with imp := some .heap, sel := none, stage := .opcode }
  | some .T, .L => .goOn { d with imp := some .io, sel := none, stage := .opcode }
  | some .S, _ => .unreachable
  | some .L, _ => .unreachable

/-- What a symbol selects in stage `OPCODE`. -/
inductive Selection
  /-- The first of two symbols: `D.sel <- s`. -/
  | more (s : Sym)
  /-- "need operand for" the opcode (R124). -/
  | need (op : Opcode)
  /-- "complete" the opcode, which has no operand (R124). -/
  | done (op : Opcode)
  /-- `BadOpcodeSelector` (R126). -/
  | bad
  deriving DecidableEq, Repr

/-- The opcode selectors (31_decoder_fsm R127 to R138); a pair that no rule lists is bad (R126). Log
entry 9. -/
def selectOpcode : Family → Option Sym → Sym → Selection
  -- R127, R128, R129
  | .stack, none, .S => .need .push
  | .stack, none, .T => .more .T
  | .stack, none, .L => .more .L
  | .stack, some .T, .S => .need .copy
  | .stack, some .T, .L => .need .slide
  | .stack, some .L, .S => .done .duplicate
  | .stack, some .L, .T => .done .swap
  | .stack, some .L, .L => .done .discard
  -- R130, R131, R132
  | .arith, none, .S => .more .S
  | .arith, none, .T => .more .T
  | .arith, some .S, .S => .done .add
  | .arith, some .S, .T => .done .sub
  | .arith, some .S, .L => .done .mul
  | .arith, some .T, .S => .done .div
  | .arith, some .T, .T => .done .mod
  -- R133
  | .heap, none, .S => .done .store
  | .heap, none, .T => .done .retrieve
  -- R134, R135, R136, R137
  | .flow, none, .S => .more .S
  | .flow, none, .T => .more .T
  | .flow, none, .L => .more .L
  | .flow, some .S, .S => .need .mark
  | .flow, some .S, .T => .need .call
  | .flow, some .S, .L => .need .jump
  | .flow, some .T, .S => .need .jumpIfZero
  | .flow, some .T, .T => .need .jumpIfNegative
  | .flow, some .T, .L => .done .ret
  | .flow, some .L, .L => .done .endProg
  -- R138
  | .io, none, .S => .more .S
  | .io, none, .T => .more .T
  | .io, some .S, .S => .done .outChar
  | .io, some .S, .T => .done .outNum
  | .io, some .T, .S => .done .inChar
  | .io, some .T, .T => .done .inNum
  -- R126
  | _, _, _ => .bad

/-- Stage `OPCODE` (31_decoder_fsm R126). -/
def Decoder.opcodeStage (d : Decoder) (s : Sym) : Move :=
  match d.imp with
  | none => .unreachable
  | some f =>
    match selectOpcode f d.sel s with
    | .more x => .goOn { d with sel := some x }
    | .need op => .goOn { d with op := some op, sel := none, stage := .sign }
    | .done op => .complete (op.instr 0)
    | .bad => .error .badOpcodeSelector

/-- Stage `SIGN` (31_decoder_fsm R139). -/
def Decoder.signStage (d : Decoder) (s : Sym) : Move :=
  match s with
  | .S => .goOn { d with neg := false, mag := 0, nbits := 0, stage := .bits }
  | .T => .goOn { d with neg := true, mag := 0, nbits := 0, stage := .bits }
  | .L => .error .missingSign

/-- The value of an operand (30_encoding R97): there is no negative zero. -/
def operandValue (neg : Bool) (mag : Nat) : Int := if neg then -(mag : Int) else (mag : Int)

/-- A magnitude bit in stage `BITS` (31_decoder_fsm R140, R141). -/
def Decoder.bit (c : Config) (d : Decoder) (op : Opcode) (b : Bool) : Move :=
  let mag := 2 * d.mag + b.toNat
  if op.isLabel && atCap c.labelBits d.nbits then .error .operandRange
  else if op.isNumber && decide (c.rangeCheck = .early ∧ halfRange c.W < (mag : Int)) then .error .operandRange
  else .goOn { d with mag := mag, nbits := d.nbits + 1 }

/-- The terminator in stage `BITS` (31_decoder_fsm R142). -/
def Decoder.finishOperand (c : Config) (d : Decoder) (op : Opcode) : Move :=
  let v := operandValue d.neg d.mag
  if op.isNumber && !decide (isWord c.W v) then .error .operandRange else .complete (op.instr v)

/-- Stage `BITS` (31_decoder_fsm R140 to R142). -/
def Decoder.bitsStage (c : Config) (d : Decoder) (s : Sym) : Move :=
  match d.op with
  | none => .unreachable
  | some op =>
    match s with
    | .S => d.bit c op false
    | .T => d.bit c op true
    | .L => d.finishOperand c op

/-- One symbol (31_decoder_fsm R124). -/
def Decoder.symbol (c : Config) (d : Decoder) (s : Sym) : Move :=
  match d.stage with
  | .imp => d.impStage s
  | .opcode => d.opcodeStage s
  | .sign => d.signStage s
  | .bits => d.bitsStage c s

/-- Parts (1) and (2) of a decoder step (31_decoder_fsm R121): count the byte and tokenize it. -/
def Decoder.take (c : Config) (d : Decoder) (b : Byte) : Decoder × Option Sym :=
  let t := tokenize c.crlf d.cr b
  ({ d with offset := d.offset + 1, cr := t.2 }, t.1)

/-- Back to the IMP stage with an empty accumulator, the last two lines of 31_decoder_fsm R143. -/
def Decoder.restart (d : Decoder) : Decoder :=
  { d with stage := .imp, imp := none, sel := none, op := none, neg := false, mag := 0, nbits := 0 }

/-- Between instructions (31_decoder_fsm R145: "`D.stage = IMP` and `D.sel` is empty"). -/
def Decoder.atBoundary (d : Decoder) : Bool := decide (d.stage = .imp ∧ d.sel = none)

/-! ### The instruction sequence and the label table -/

/-- The label table `LT` (10_state R30). -/
abbrev LabelTable := IntMap Nat

/-- What the decoder owns or writes: `D.*`, `P`, `LT` (10_state R20). -/
structure Front where
  D : Decoder
  P : List Instr
  LT : LabelTable
  deriving DecidableEq, Repr

/-- The outcome of one decoder step. -/
inductive FrontResult
  /-- The step is done. -/
  | ok (f : Front)
  /-- A decode error of kind `k` at byte offset `off` (60_exceptions R296), the decoder left as `f`. -/
  | error (k : ErrKind) (off : Nat) (f : Front)
  /-- The decoder was in no state of 31_decoder_fsm R147. -/
  | unreachable
  deriving DecidableEq, Repr

/-- The capacity checks of 31_decoder_fsm R143, made before any write; `none` where both pass. -/
def Front.capacityError (c : Config) (f : Front) (i : Instr) : Option ErrKind :=
  if atCap c.progCap f.P.length then some .programCapacity
  else
    match i.markLabel? with
    | none => none
    | some l =>
      if (f.LT.get? l).isNone && atCap c.labelCap f.LT.length then some .labelCapacity else none

/-- The writes of 31_decoder_fsm R143 and R144: append the instruction, register a `Mark` at its own position, over
any earlier one, and return to the IMP stage. -/
def Front.append (f : Front) (i : Instr) : Front :=
  { D := f.D.restart
    P := f.P ++ [i]
    LT := match i.markLabel? with
      | none => f.LT
      | some l => f.LT.set l f.P.length }

/-- "complete `op` with operand `v`" (31_decoder_fsm R143), in a step that read the byte at `off`. -/
def Front.complete (c : Config) (f : Front) (off : Nat) (i : Instr) : FrontResult :=
  match f.capacityError c i with
  | some k => .error k off f
  | none => .ok (f.append i)

/-- A decoder step on `byte(b)` (31_decoder_fsm R121). -/
def Front.byte (c : Config) (f : Front) (b : Byte) : FrontResult :=
  let t := f.D.take c b
  let f' : Front := { f with D := t.1 }
  match t.2 with
  | none => .ok f'
  | some s =>
    match t.1.symbol c s with
    | .goOn d => .ok { f' with D := d }
    | .complete i => f'.complete c f.D.offset i
    | .error k => .error k f.D.offset f'
    | .unreachable => .unreachable

/-- A decoder step on the `end` event (31_decoder_fsm R145). -/
def Front.eof (f : Front) : FrontResult :=
  if f.D.atBoundary then .ok f else .error .unexpectedEOF f.D.offset f

/-- A whole source stream and its `end` event (31_decoder_fsm R120, R145, R146). -/
def Front.stream (c : Config) : Front → List Byte → FrontResult
  | f, [] => f.eof
  | f, b :: bs =>
    match f.byte c b with
    | .ok f' => Front.stream c f' bs
    | r => r

/-- The decoder's part of the state after reset (10_state R20). -/
def Front.reset : Front := { D := .reset, P := [], LT := [] }

/-! ### One instruction of a byte string -/

/-- What stands at the front of a byte string. -/
inductive DecodeResult
  /-- An instruction, and the bytes after it. -/
  | instr (i : Instr) (rest : List Byte)
  /-- The bytes end between instructions. -/
  | endOfProgram
  /-- A decode error, rejected by its kind, at a byte offset. -/
  | error (k : ErrKind) (off : Nat)
  /-- The decoder was in no state of 31_decoder_fsm R147. -/
  | unreachable
  deriving DecidableEq, Repr

/-- The first instruction the decoder completes from state `d`, capacities apart. -/
def decodeInstr (c : Config) : Decoder → List Byte → DecodeResult
  | d, [] => if d.atBoundary then .endOfProgram else .error .unexpectedEOF d.offset
  | d, b :: bs =>
    match (d.take c b).2 with
    | none => decodeInstr c (d.take c b).1 bs
    | some s =>
      match (d.take c b).1.symbol c s with
      | .goOn d' => decodeInstr c d' bs
      | .complete i => .instr i bs
      | .error k => .error k d.offset
      | .unreachable => .unreachable

/-! ### The encoder -/

/-- IMP and SEL of an opcode (30_encoding R94, R100). -/
def Opcode.spelling : Opcode → List Sym
  | .push => [.S, .S]
  | .duplicate => [.S, .L, .S]
  | .copy => [.S, .T, .S]
  | .swap => [.S, .L, .T]
  | .discard => [.S, .L, .L]
  | .slide => [.S, .T, .L]
  | .add => [.T, .S, .S, .S]
  | .sub => [.T, .S, .S, .T]
  | .mul => [.T, .S, .S, .L]
  | .div => [.T, .S, .T, .S]
  | .mod => [.T, .S, .T, .T]
  | .store => [.T, .T, .S]
  | .retrieve => [.T, .T, .T]
  | .mark => [.L, .S, .S]
  | .call => [.L, .S, .T]
  | .jump => [.L, .S, .L]
  | .jumpIfZero => [.L, .T, .S]
  | .jumpIfNegative => [.L, .T, .T]
  | .ret => [.L, .T, .L]
  | .endProg => [.L, .L, .L]
  | .outChar => [.T, .L, .S, .S]
  | .outNum => [.T, .L, .S, .T]
  | .inChar => [.T, .L, .T, .S]
  | .inNum => [.T, .L, .T, .T]

/-- The digits of `n` in a base, most significant first, none for 0; `fuel` at least `n` is enough for a base
above 1. -/
def digitsFuel (base : Nat) : Nat → Nat → List Nat
  | 0, _ => []
  | fuel + 1, n => if n = 0 then [] else digitsFuel base fuel (n / base) ++ [n % base]

/-- The digits of `n` in a base above 1, most significant first, with no leading zero; none for 0. -/
def digits (base n : Nat) : List Nat := digitsFuel base n n

/-- The canonical spelling of an operand (30_encoding R96, R110). -/
def operandSpelling (v : Int) : List Sym :=
  (if v < 0 then Sym.T else Sym.S) ::
    (digits 2 v.natAbs).map (fun d => if d = 0 then Sym.S else Sym.T) ++ [Sym.L]

/-- The canonical symbols of an instruction (30_encoding R93, R110). -/
def Instr.spelling (i : Instr) : List Sym :=
  i.opcode.spelling ++
    match i.operand? with
    | none => []
    | some v => operandSpelling v

/-- The byte a symbol is written as (30_encoding R90); `L` as a line feed. -/
def Sym.byte : Sym → Byte
  | .S => 0x20
  | .T => 0x09
  | .L => 0x0A

/-- The canonical source bytes of an instruction (30_encoding R110). Log entry 23. -/
def encode (i : Instr) : List Byte := i.spelling.map Sym.byte

/-! ### The table's window -/

/-- A two-bit code of the table's window (92_eei_decisions D28); 11 never occurs. -/
def windowSym (code : Nat) : Option Sym :=
  match code with
  | 0 => some .S
  | 1 => some .T
  | 2 => some .L
  | _ => none

/-- The symbols of `nbits` bits of table windows: four symbols to an eight-bit window, the first in bits [7:6]
(92_eei_decisions D28), a later window counting on from bit 8; cut at the first code 11. -/
def windowSyms (nbits w : Nat) : List (Option Sym) :=
  (List.range ((nbits + 7) / 8)).flatMap fun k =>
    let win := w / 2 ^ (8 * k) % 256
    [windowSym (win / 64), windowSym (win / 16 % 4), windowSym (win / 4 % 4), windowSym (win % 4)]

/-- The source bytes a table word stands for: its symbols, then, where it holds no code 11, one terminator, since
the table gives an operand no bits and an operand of zeros ends at its first `L`. Log entry 6. -/
def windowBytes (nbits w : Nat) : List Byte :=
  let syms := windowSyms nbits w
  let valid := (syms.takeWhile Option.isSome).filterMap id
  (valid ++ if valid.length = syms.length then [Sym.L] else []).map Sym.byte

/-- The instruction the decoder reads from a table word (see log entry 6), under the default parameters. -/
def decodeTableWord (nbits w : Nat) : Option Instr :=
  match decodeInstr Config.standard Decoder.reset (windowBytes nbits w) with
  | .instr i _ => some i
  | .endOfProgram => none
  | .error _ _ => none
  | .unreachable => none

end Sys2Proof
end

