-- ==== Sys2Proof/Machine/State.lean ====
section
/-! DEFINITION. The state of one instance (10_state R20), as plain data, the reasons a step can stop, and the state
after reset (70_reset_and_hazards R330, R331). -/

namespace Sys2Proof.Machine

/-- `PHASE` (10_state R41). -/
inductive Phase
  | decode
  | ready
  | run
  | done
  | decodeErr
  | runErr
  deriving DecidableEq, Repr

/-- `ERRPOS` (10_state R43). -/
structure ErrPos where
  /-- Byte offset of a decode error. -/
  offset : Option Nat
  /-- Instructions completely decoded at a decode error. -/
  icount : Option Nat
  /-- The `pc` of the instruction that raised a run-time error. -/
  pc : Option Nat
  deriving DecidableEq, Repr

/-- All three fields `none` (10_state R43). -/
def ErrPos.none : ErrPos := { offset := Option.none, icount := Option.none, pc := Option.none }

/-- The heap `H` (10_state R36): the written addresses with their words; an unlisted address is unwritten. Log
entry 14. -/
abbrev Memory := IntMap Word

/-- The canonical form of the heap: addresses strictly rising. -/
abbrev Memory.wf (m : Memory) : Prop := IntMap.wf m

/-- What the host does to the block, one event at a time: it delivers the source stream (31_decoder_fsm R120) and the
runtime input (10_state R38), starts the run (32_vm_cycle R160) and resets (70_reset_and_hazards R330). -/
inductive HostEvent
  /-- A byte of the source stream. -/
  | byte (b : Byte)
  /-- The `end` event of the source stream. -/
  | eof
  /-- The `start` action. -/
  | start
  /-- The `reset` action. -/
  | reset
  /-- A character of the runtime input, a code point. -/
  | inputChar (code : Nat)
  /-- The end-of-stream mark of the runtime input. -/
  | inputEnd
  deriving DecidableEq, Repr

/-- The state of one instance (10_state R20), under the spec's own names, and three fields of the model's own:
`cfg`, `inbox`, `freeDraws`. Stacks and sequences have their top at the tail (00_scope R8). -/
structure State where
  /-- The parameters (00_scope R6), fixed before reset (10_state R45). Log entry 1. -/
  cfg : Config
  /-- Host events not yet taken, the first one next. Log entry 2. -/
  inbox : List HostEvent
  /-- The decoder's `D.*` (R22 to R28). -/
  D : Decoder
  /-- The instruction sequence (R29). -/
  P : List Instr
  /-- The label table (R30). -/
  LT : LabelTable
  /-- The program counter (R32). -/
  pc : Nat
  /-- The operand stack (R33). -/
  S : List Word
  /-- The call stack (R35). -/
  C : List Nat
  /-- The heap (R36). -/
  H : Memory
  /-- The runtime input not yet consumed (R38). -/
  IN : InStream
  /-- The characters emitted so far (R39). -/
  OUT : List Int
  /-- `PHASE` (R41). -/
  phase : Phase
  /-- `ERR` (R42), as a kind; `errCode` (Machine/Ops.lean) gives the code. Log entry 12. -/
  err : ErrKind
  /-- `ERRPOS` (R43). -/
  errpos : ErrPos
  /-- `EXIT` (R44). -/
  exit : Option Int
  /-- How many free values have been drawn (44_io R266). Log entry 4. -/
  freeDraws : Nat
  deriving DecidableEq, Repr

/-- Why a step can stop with a fault. No instruction raises one: every error the spec describes is taken as the spec
says (60_exceptions R296, R297) and is a next state. -/
inductive Fault
  /-- Raised by the decoder on a symbol in a state that is none of the 18 of 31_decoder_fsm R147; no run reaches one.
  Safe: the machine stops where the spec says nothing. Log entry 7. -/
  | decoderUnreachable
  deriving DecidableEq, Repr

/-- Why a step can be refused. -/
inductive Refusal
  /-- Raised by an arm of `exec` whose instruction has no meaning yet; no arm does so. Safe. -/
  | notModelled (mnemonic : String)
  /-- Raised by the host event `inputChar` whose code is no character of the runtime input (10_state R38: "a
  non-negative integer code point smaller than `2^(W-1)`"), while the stream is open and the run not over. Safe: the
  spec leaves rejecting non-characters to the host, outside the block (92_eei_decisions D20). Log entry 5. -/
  | notACharacter (code : Nat)
  deriving DecidableEq, Repr

/-- The reset state under given parameters (10_state R20, 70_reset_and_hazards R330, R331); nothing is delivered yet.
Log entries 1 to 4. -/
def State.resetWith (c : Config) : State :=
  { cfg := c
    inbox := []
    D := Decoder.reset
    P := []
    LT := []
    pc := 0
    S := []
    C := []
    H := []
    IN := { chars := [], ended := false }
    OUT := []
    phase := .decode
    err := .noError
    errpos := ErrPos.none
    exit := none
    freeDraws := 0 }

/-- The machine right after reset, every parameter at its default (00_scope R6). -/
def State.reset : State := State.resetWith Config.standard

end Sys2Proof.Machine
end

