-- ==== Sys2Proof/Machine/Ops.lean ====
section
/-! DEFINITION. The named operations on the state that the instructions share: the default advance, the end of a
run, ENTERING AN ERROR (60_exceptions R296, R297), the heap cell operations (20_memory R66, R67), the lookup of a
label (43_flow R230), the output (00_scope R10) and the input (44_io R262, R263). There is no return from an error
(60_exceptions R300): only `hostReset` (Machine/HostEvents.lean) leaves an error phase. -/

namespace Sys2Proof.Machine

/-- What an instruction or a step answers. -/
abbrev Result := Host.Outcome State Fault Refusal

/-- The code `ERR` takes for a kind (60_exceptions R281). -/
def errCode : ErrKind → Nat
  | .noError => 0
  | .badImpSelector => 1
  | .badOpcodeSelector => 2
  | .missingSign => 3
  | .unexpectedEOF => 4
  | .operandRange => 5
  | .programCapacity => 6
  | .labelCapacity => 7
  | .stackUnderflow => 16
  | .indexOutOfRange => 17
  | .heapKeyError => 18
  | .callStackUnderflow => 19
  | .divisionByZero => 20
  | .unresolvedLabel => 21
  | .inputExhausted => 22
  | .parseError => 23
  | .stackOverflow => 24
  | .callStackOverflow => 25
  | .heapCapacity => 26

/-- `pc <- pc + 1`, the default advance (32_vm_cycle R162). -/
def advance (s : State) : State := { s with pc := s.pc + 1 }

/-- A successful end of the run (32_vm_cycle R163, 43_flow R237). -/
def finish (s : State) : State := { s with phase := .done, exit := some s.cfg.exitOk }

/-- Entry on a run-time error raised by the instruction at `pc` (60_exceptions R297). -/
def runError (k : ErrKind) (s : State) : State :=
  { s with err := k, errpos := { s.errpos with pc := some s.pc }, phase := .runErr, exit := some s.cfg.exitFail }

/-- Entry on a run-time error of an input instruction: as `runError`, and the content of `IN` is unspecified
(44_io R266, 60_exceptions R298): a free value. -/
def inputError (k : ErrKind) (s : State) : State :=
  { runError k s with IN := Config.freeInput s.freeDraws, freeDraws := s.freeDraws + 1 }

/-- Entry on a decode error raised in a step that read `off` (60_exceptions R296). Log entry 19. -/
def decodeError (k : ErrKind) (off : Nat) (s : State) : State :=
  { s with
    err := k
    errpos := { s.errpos with offset := some off, icount := some s.P.length }
    phase := .decodeErr
    exit := some s.cfg.exitFail }

/-- `raise Kind(pc)` (00_scope R10): the instruction ends with the entry on a run-time error. -/
def raise (k : ErrKind) (s : State) : Result := .next (runError k s)

/-- `raise Kind(pc)` by `InChar` or `InNum` (44_io R266). -/
def raiseInput (k : ErrKind) (s : State) : Result := .next (inputError k s)

/-- `MemRead(a, 1)` (20_memory R66): the word at `a`; `none` is `HeapKeyError`. -/
def memRead (c : Config) (H : Memory) (a : Word) : Option Word :=
  match H.get? a with
  | some v => some v
  | none =>
    match c.heapDefault with
    | .fault => none
    | .zero => some 0

/-- `MemWrite(a, 1, v)` (20_memory R67): the heap with `v` at `a`; `none` is `HeapCapacity`. -/
def memWrite (c : Config) (H : Memory) (a v : Word) : Option Memory :=
  if (H.get? a).isNone && atCap c.heapCap H.length then none else some (H.set a v)

/-- `emit` of characters in order (00_scope R10, 10_state R39). -/
def emit (cs : List Int) (s : State) : State := { s with OUT := s.OUT ++ cs }

/-- The first line of the input and what follows its line feed, code 10 (44_io R263); `none` where no line feed has
been delivered. -/
def splitLine : List Nat → Option (List Nat × List Nat)
  | [] => none
  | ch :: cs =>
    if ch = 10 then some ([], cs)
    else
      match splitLine cs with
      | none => none
      | some (line, rest) => some (ch :: line, rest)

end Sys2Proof.Machine
end

