-- ==== Sys2Proof/Machine/Operands.lean ====
section
/-! DEFINITION. The operand forms and the number operations: the top one and top two elements of the operand stack,
the element at a depth, the elements below the top (20_memory R61); `wrap` and the two divisions (00_scope R9); the
decimal text of a word (44_io R264) and the grammar of an input line (44_io R265). -/

namespace Sys2Proof.Machine

/-- The top element and the elements below it; `none` on an empty stack. -/
def pop1 {α : Type} (q : List α) : Option (List α × α) :=
  match q.reverse with
  | [] => none
  | x :: r => some (r.reverse, x)

/-- The top two elements, `a` below `b`, and the elements below them; `none` where fewer than two are held. -/
def pop2 {α : Type} (q : List α) : Option (List α × α × α) :=
  match q.reverse with
  | b :: a :: r => some (r.reverse, a, b)
  | _ => none

/-- The element at depth `d` from the top, `q[len(q)-1-d]` (00_scope R8); `none` where `d >= len(q)`. -/
def atDepth {α : Type} (q : List α) (d : Nat) : Option α :=
  if d < q.length then q[q.length - 1 - d]? else none

/-- `q` with the `n` elements below its top removed (40_stack R186); `none` where it holds fewer than `n + 1`. -/
def slideBy {α : Type} (q : List α) (n : Nat) : Option (List α) :=
  match pop1 q with
  | none => none
  | some (below, t) => if below.length < n then none else some (below.take (below.length - n) ++ [t])

/-- `wrap(x)`: the word congruent to `x` modulo `2^W` (00_scope R9). -/
def wrap (W : Nat) (x : Int) : Word := (x + halfRange W) % ((2 ^ W : Nat) : Int) - halfRange W

/-- The quotient of `Div` (41_arithmetic R204), in `Z`. -/
def quotient (m : DivMod) (a b : Int) : Int :=
  match m with
  | .truncating => Int.tdiv a b
  | .flooring => Int.fdiv a b

/-- The remainder of `Mod` (41_arithmetic R205). -/
def remainder (m : DivMod) (a b : Int) : Int :=
  match m with
  | .truncating => Int.tmod a b
  | .flooring => Int.fmod a b

/-- The code point of a decimal digit (44_io R264). -/
def digitChar (d : Nat) : Int := (d : Int) + 48

/-- `dec(v)`, the base-10 text of a word (44_io R264); 45 is `-`. -/
def dec (v : Int) : List Int :=
  if v = 0 then [48]
  else if v < 0 then 45 :: (digits 10 v.natAbs).map digitChar
  else (digits 10 v.natAbs).map digitChar

/-- A character is a decimal digit (44_io R265: codes 48 to 57). -/
def isDigit (ch : Nat) : Bool := decide (48 ≤ ch ∧ ch ≤ 57)

/-- The number a run of one or more digits denotes; `none` where it is empty or holds something else. -/
def parseDigits (cs : List Nat) : Option Nat :=
  match cs with
  | [] => none
  | _ :: _ => if cs.all isDigit then some (cs.foldl (fun n ch => 10 * n + (ch - 48)) 0) else none

/-- The integer a line denotes under the grammar of 44_io R265; `none` where it does not match. 43 is `+`, 45 is
`-`. -/
def parseLine (line : List Nat) : Option Int :=
  match line with
  | [] => none
  | ch :: cs =>
    if ch = 43 then (parseDigits cs).map fun (n : Nat) => (n : Int)
    else if ch = 45 then (parseDigits cs).map fun (n : Nat) => -(n : Int)
    else (parseDigits (ch :: cs)).map fun (n : Nat) => (n : Int)

end Sys2Proof.Machine
end

