-- ==== Sys2Proof/Machine/Arith.lean ====
section
/-! DEFINITION. The arithmetic family (41_arithmetic): `Add`, `Sub`, `Mul`, `Div`, `Mod`. -/

namespace Sys2Proof.Machine

/-- Replace the top two elements `a`, `b` by one word (41_arithmetic R200). -/
def binary (f : Int → Int → Word) (s : State) : Result :=
  match pop2 s.S with
  | none => raise .stackUnderflow s
  | some (below, a, b) => .next (advance { s with S := below ++ [f a b] })

/-- As `binary`, and a zero divisor `b` raises `DivisionByZero`, after the underflow check (41_arithmetic R200). -/
def dividing (f : Int → Int → Word) (s : State) : Result :=
  match pop2 s.S with
  | none => raise .stackUnderflow s
  | some (below, a, b) =>
    if b = 0 then raise .divisionByZero s else .next (advance { s with S := below ++ [f a b] })

/-- `Add` (41_arithmetic R201). -/
def execAdd (s : State) : Result := binary (fun a b => wrap s.cfg.W (a + b)) s

/-- `Sub` (41_arithmetic R202). -/
def execSub (s : State) : Result := binary (fun a b => wrap s.cfg.W (a - b)) s

/-- `Mul` (41_arithmetic R203). -/
def execMul (s : State) : Result := binary (fun a b => wrap s.cfg.W (a * b)) s

/-- `Div` (41_arithmetic R204). -/
def execDiv (s : State) : Result := dividing (fun a b => wrap s.cfg.W (quotient s.cfg.divmod a b)) s

/-- `Mod` (41_arithmetic R205): the result needs no wrap. -/
def execMod (s : State) : Result := dividing (fun a b => remainder s.cfg.divmod a b) s

end Sys2Proof.Machine
end

