-- ==== Sys2Proof/Machine/Flow.lean ====
section
/-! DEFINITION. The flow family (43_flow): `Mark`, `Call`, `Jump`, `JumpIfZero`, `JumpIfNegative`, `Return`, `End`. -/

namespace Sys2Proof.Machine

/-- `Mark(l)` (43_flow R231): a no-op at run time. -/
def execMark (_l : Int) (s : State) : Result := .next (advance s)

/-- `Call(l)` (43_flow R232). -/
def execCall (l : Int) (s : State) : Result :=
  if atCap s.cfg.callCap s.C.length then raise .callStackOverflow s
  else
    match s.LT.get? l with
    | none => raise .unresolvedLabel s
    | some t => .next { s with C := s.C ++ [s.pc + 1], pc := t }

/-- `Jump(l)` (43_flow R233). -/
def execJump (l : Int) (s : State) : Result :=
  match s.LT.get? l with
  | none => raise .unresolvedLabel s
  | some t => .next { s with pc := t }

/-- A conditional jump: the tested value is consumed whether or not the jump is taken; the label is looked up when
the jump is taken, or always under `LABEL_RESOLVE = on_execute` (43_flow R230, R234, R235). -/
def jumpIf (test : Int → Bool) (l : Int) (s : State) : Result :=
  match pop1 s.S with
  | none => raise .stackUnderflow s
  | some (below, x) =>
    match test x, s.LT.get? l, s.cfg.labelResolve with
    | true, some t, _ => .next { s with S := below, pc := t }
    | true, none, _ => raise .unresolvedLabel s
    | false, none, .onExecute => raise .unresolvedLabel s
    | false, none, .onTaken => .next (advance { s with S := below })
    | false, some _, _ => .next (advance { s with S := below })

/-- `JumpIfZero(l)` (43_flow R234). -/
def execJumpIfZero (l : Int) (s : State) : Result := jumpIf testZero l s

/-- `JumpIfNegative(l)` (43_flow R235). -/
def execJumpIfNegative (l : Int) (s : State) : Result := jumpIf testNegative l s

/-- `Return` (43_flow R236). -/
def execRet (s : State) : Result :=
  match pop1 s.C with
  | none => raise .callStackUnderflow s
  | some (below, r) => .next { s with C := below, pc := r }

/-- `End` (43_flow R237): `pc` is left at the index of the `End`. -/
def execEndProg (s : State) : Result := .next (finish s)

end Sys2Proof.Machine
end

