-- ==== Sys2Proof/Machine/Heap.lean ====
section
/-! DEFINITION. The heap family (42_heap): `Store`, `Retrieve`. -/

namespace Sys2Proof.Machine

/-- `Store` (42_heap R220): the value on top, the address below it. -/
def execStore (s : State) : Result :=
  match pop2 s.S with
  | none => raise .stackUnderflow s
  | some (below, a, v) =>
    match memWrite s.cfg s.H a v with
    | none => raise .heapCapacity s
    | some H => .next (advance { s with S := below, H := H })

/-- `Retrieve` (42_heap R221). -/
def execRetrieve (s : State) : Result :=
  match pop1 s.S with
  | none => raise .stackUnderflow s
  | some (below, a) =>
    match memRead s.cfg s.H a with
    | none => raise .heapKeyError s
    | some v => .next (advance { s with S := below ++ [v] })

end Sys2Proof.Machine
end

