-- ==== Sys2Proof/Machine/InputOutput.lean ====
section
/-! DEFINITION. The I/O family (44_io): `OutChar`, `OutNum`, `InChar`, `InNum`. A hold before an input instruction
(32_vm_cycle R168) is a next state with nothing changed. Log entry 13. -/

namespace Sys2Proof.Machine

/-- Pop a word and emit characters made of it. -/
def output (text : Int → List Int) (s : State) : Result :=
  match pop1 s.S with
  | none => raise .stackUnderflow s
  | some (below, v) => .next (advance (emit (text v) { s with S := below }))

/-- `OutChar` (44_io R260): the word itself is the character, unchecked. -/
def execOutChar (s : State) : Result := output (fun v => [v]) s

/-- `OutNum` (44_io R261). -/
def execOutNum (s : State) : Result := output dec s

/-- The part `InChar` and `InNum` share once they have a value: pop the address, write the cell, leave `rest` in the
input (44_io R262, R263). -/
def storeInput (v : Word) (rest : List Nat) (s : State) : Result :=
  match pop1 s.S with
  | none => raiseInput .stackUnderflow s
  | some (below, a) =>
    match memWrite s.cfg s.H a v with
    | none => raiseInput .heapCapacity s
    | some H => .next (advance { s with S := below, H := H, IN := { s.IN with chars := rest } })

/-- `InChar` (44_io R262). -/
def execInChar (s : State) : Result :=
  match s.IN.chars with
  | [] => if s.IN.ended then raiseInput .inputExhausted s else .next s
  | ch :: rest => storeInput (ch : Int) rest s

/-- `InNum` (44_io R263). -/
def execInNum (s : State) : Result :=
  match splitLine s.IN.chars with
  | none => if s.IN.ended then raiseInput .inputExhausted s else .next s
  | some (line, rest) =>
    match parseLine line with
    | none => raiseInput .parseError s
    | some n => if isWord s.cfg.W n then storeInput n rest s else raiseInput .parseError s

end Sys2Proof.Machine
end

