-- ==== Sys2Proof/Machine/Stack.lean ====
section
/-! DEFINITION. The stack family (40_stack): `Push`, `Duplicate`, `Copy`, `Swap`, `Discard`, `Slide`. -/

namespace Sys2Proof.Machine

/-- Push a word that is at hand and advance, or raise `StackOverflow` (10_state R34). -/
def pushWord (v : Word) (s : State) : Result :=
  if atCap s.cfg.stackCap s.S.length then raise .stackOverflow s
  else .next (advance { s with S := s.S ++ [v] })

/-- `Push(n)` (40_stack R181). -/
def execPush (n : Int) (s : State) : Result := pushWord n s

/-- `Duplicate` (40_stack R182). -/
def execDuplicate (s : State) : Result :=
  match atDepth s.S 0 with
  | none => raise .stackUnderflow s
  | some v => pushWord v s

/-- `Copy(n)` (40_stack R183). -/
def execCopy (n : Int) (s : State) : Result :=
  if n < 0 then raise .indexOutOfRange s
  else
    match atDepth s.S n.toNat with
    | none => raise .stackUnderflow s
    | some v => pushWord v s

/-- `Swap` (40_stack R184). -/
def execSwap (s : State) : Result :=
  match pop2 s.S with
  | none => raise .stackUnderflow s
  | some (below, a, b) => .next (advance { s with S := below ++ [b, a] })

/-- `Discard` (40_stack R185). -/
def execDiscard (s : State) : Result :=
  match pop1 s.S with
  | none => raise .stackUnderflow s
  | some (below, _) => .next (advance { s with S := below })

/-- `Slide(n)` (40_stack R186). -/
def execSlide (n : Int) (s : State) : Result :=
  if n < 0 then raise .indexOutOfRange s
  else
    match slideBy s.S n.toNat with
    | none => raise .stackUnderflow s
    | some q => .next (advance { s with S := q })

end Sys2Proof.Machine
end

