-- ==== Sys2Proof/Machine/Dispatch.lean ====
section
/-! DEFINITION. The dispatch on the opcode (32_vm_cycle R164): one arm per instruction, each its meaning. -/

namespace Sys2Proof.Machine

def exec (i : Instr) (s : State) : Host.Outcome State Fault Refusal :=
  match i with
  | .push n => Sys2Proof.Machine.execPush n s
  | .duplicate => Sys2Proof.Machine.execDuplicate s
  | .copy n => Sys2Proof.Machine.execCopy n s
  | .swap => Sys2Proof.Machine.execSwap s
  | .discard => Sys2Proof.Machine.execDiscard s
  | .slide n => Sys2Proof.Machine.execSlide n s
  | .add => Sys2Proof.Machine.execAdd s
  | .sub => Sys2Proof.Machine.execSub s
  | .mul => Sys2Proof.Machine.execMul s
  | .div => Sys2Proof.Machine.execDiv s
  | .mod => Sys2Proof.Machine.execMod s
  | .store => Sys2Proof.Machine.execStore s
  | .retrieve => Sys2Proof.Machine.execRetrieve s
  | .mark l => Sys2Proof.Machine.execMark l s
  | .call l => Sys2Proof.Machine.execCall l s
  | .jump l => Sys2Proof.Machine.execJump l s
  | .jumpIfZero l => Sys2Proof.Machine.execJumpIfZero l s
  | .jumpIfNegative l => Sys2Proof.Machine.execJumpIfNegative l s
  | .ret => Sys2Proof.Machine.execRet s
  | .endProg => Sys2Proof.Machine.execEndProg s
  | .outChar => Sys2Proof.Machine.execOutChar s
  | .outNum => Sys2Proof.Machine.execOutNum s
  | .inChar => Sys2Proof.Machine.execInChar s
  | .inNum => Sys2Proof.Machine.execInNum s

end Sys2Proof.Machine
end

