-- ==== Sys2Proof/Machine/HostEvents.lean ====
section
/-! DEFINITION. What the host can do to the block (10_state R45, 70_reset_and_hazards R333), each event taken by one
step, and what it may read (60_exceptions R305). An event that means nothing in the current phase is ignored
(31_decoder_fsm R121, 32_vm_cycle R160). -/

namespace Sys2Proof.Machine

/-- The decoder's part of the state. -/
def State.front (s : State) : Front := { D := s.D, P := s.P, LT := s.LT }

/-- The state with the decoder's part replaced. -/
def State.withFront (s : State) (f : Front) : State := { s with D := f.D, P := f.P, LT := f.LT }

/-- A decode step's outcome taken into the state; an error is entered as 60_exceptions R296 says. -/
def takeFront (s : State) (r : FrontResult) (onOk : State → State) : Result :=
  match r with
  | .ok f => .next (onOk (s.withFront f))
  | .error k off f => .next (decodeError k off (s.withFront f))
  | .unreachable => .fault .decoderUnreachable

/-- `byte(b)` of the source stream (31_decoder_fsm R121). -/
def hostByte (b : Byte) (s : State) : Result :=
  if s.phase = .decode then takeFront s (s.front.byte s.cfg b) id else .next s

/-- `end` of the source stream (31_decoder_fsm R145): the program is ready, or `UnexpectedEOF`. Log entry 16. -/
def hostEof (s : State) : Result :=
  if s.phase = .decode then takeFront s s.front.eof (fun t => { t with phase := .ready }) else .next s

/-- `start` (32_vm_cycle R160): legal only when `PHASE = READY`, ignored otherwise. -/
def hostStart (s : State) : Result :=
  if s.phase = .ready then .next { s with phase := .run } else .next s

/-- `reset` (70_reset_and_hazards R330): every piece of state at its reset value. The parameters stay (10_state R45),
and so do the host's later events and the count of free values drawn. Log entry 17. -/
def hostReset (s : State) : Result :=
  .next { State.resetWith s.cfg with inbox := s.inbox, freeDraws := s.freeDraws }

/-- The run is over (32_vm_cycle R165): nothing but a reset happens any more (60_exceptions R300). -/
def Phase.isOver : Phase → Bool
  | .decode | .ready | .run => false
  | .done | .decodeErr | .runErr => true

/-- A character of the runtime input (10_state R38): it goes to the end of `IN`. Ignored once the run is over, when
nothing reads `IN` (32_vm_cycle R165, 44_io R266), and after the end-of-stream mark, where no character of the stream
stands. Log entry 5. -/
def hostInputChar (ch : Nat) (s : State) : Result :=
  if s.phase.isOver then .next s
  else if s.IN.ended then .next s
  else if (ch : Int) < halfRange s.cfg.W then .next { s with IN := { s.IN with chars := s.IN.chars ++ [ch] } }
  else .refused (.notACharacter ch)

/-- The end-of-stream mark of the runtime input (10_state R38); ignored once the run is over. A second mark changes
nothing. Log entry 5. -/
def hostInputEnd (s : State) : Result :=
  if s.phase.isOver then .next s else .next { s with IN := { s.IN with ended := true } }

/-- One host event. -/
def hostEvent (e : HostEvent) (s : State) : Result :=
  match e with
  | .byte b => hostByte b s
  | .eof => hostEof s
  | .start => hostStart s
  | .reset => hostReset s
  | .inputChar ch => hostInputChar ch s
  | .inputEnd => hostInputEnd s

/-- The host delivers an event: it waits behind those delivered before it. -/
def deliver (e : HostEvent) (s : State) : State := { s with inbox := s.inbox ++ [e] }

/-- What `pc` addresses (32_vm_cycle R162); `none` is `pc >= len(P)`. -/
def fetch (s : State) : Option Instr := s.P[s.pc]?

/-- What a debug facility may read between steps (60_exceptions R305). -/
structure DebugView where
  P : List Instr
  LT : LabelTable
  S : List Word
  H : Memory
  C : List Nat
  pc : Nat
  phase : Phase
  err : ErrKind
  deriving DecidableEq, Repr

/-- The debug view of a state; reading it changes nothing (60_exceptions R305). Log entry 24. -/
def debugView (s : State) : DebugView :=
  { P := s.P, LT := s.LT, S := s.S, H := s.H, C := s.C, pc := s.pc, phase := s.phase, err := s.err }

end Sys2Proof.Machine
end

