-- ==== Sys2Proof/Machine/Step.lean ====
section
/-! DEFINITION. One step of the block: the next host event if one is waiting (31_decoder_fsm R120 for the source
stream), else, when `PHASE = RUN`, one VM step (32_vm_cycle R162), else nothing (32_vm_cycle R160). Log entries 2
and 13. -/

namespace Sys2Proof.Machine

/-- The VM step (32_vm_cycle R162): run the instruction at `pc`, or end the run past the last one (R163). -/
def vmStep (s : State) : Host.Outcome State Fault Refusal :=
  match fetch s with
  | none => .next (finish s)
  | some i => exec i s

/-- One step of the block. -/
def step (s : State) : Host.Outcome State Fault Refusal :=
  match s.inbox with
  | e :: rest => hostEvent e { s with inbox := rest }
  | [] => if s.phase = .run then vmStep s else .next s

/-- The state with one instruction as its whole decoded program, at the start of a run, so that the next step runs it:
the program a source stream of just that instruction loads (31_decoder_fsm R143, R144, 32_vm_cycle R160). Log
entry 6. -/
def State.withFetchWord (s : State) (nbits w : Nat) : State :=
  match decodeTableWord nbits w with
  | none => s
  | some i =>
    let f := Front.append { D := s.D, P := [], LT := [] } i
    { s with inbox := [], P := f.P, LT := f.LT, pc := 0, phase := .run }

end Sys2Proof.Machine
end

