-- ==== Sys2Proof/Safety.lean ====
section
/-! DEFINITION. The terms claims are stated in: what a capacity leaves room for, how many stack elements an
instruction reads, where it writes the heap, the grammar and text of decimal numbers written without the machine's
own functions, and the invariants of the machine. -/

namespace Sys2Proof.Machine

/-- The next state, where there is one. -/
def next? (r : Result) : Option State :=
  match r with
  | .next t => some t
  | .fault _ => none
  | .refused _ => none

/-- One more fits beside `n` under a capacity (10_state R34, R35, R37): always when it is `inf`. -/
abbrev hasRoom (cap : Option Nat) (n : Nat) : Prop := ∀ k ∈ cap, n < k

/-- A write to address `a` fits under `HEAP_CAP` (10_state R37): `a` is written already, or one more address fits. -/
abbrev heapRoom (s : State) (a : Word) : Prop :=
  (IntMap.get? s.H a).isSome = true ∨ hasRoom s.cfg.heapCap s.H.length

/-- How many values an instruction reads from the operand stack (60_exceptions R288); a negative operand of `Copy` or
`Slide` raises before any is read (60_exceptions R289). -/
def stackReads : Instr → Nat
  | .push _ => 0
  | .duplicate => 1
  | .copy n => if n < 0 then 0 else n.toNat + 1
  | .swap => 2
  | .discard => 1
  | .slide n => if n < 0 then 0 else n.toNat + 1
  | .add => 2
  | .sub => 2
  | .mul => 2
  | .div => 2
  | .mod => 2
  | .store => 2
  | .retrieve => 1
  | .mark _ => 0
  | .call _ => 0
  | .jump _ => 0
  | .jumpIfZero _ => 1
  | .jumpIfNegative _ => 1
  | .ret => 0
  | .endProg => 0
  | .outChar => 1
  | .outNum => 1
  | .inChar => 1
  | .inNum => 1

/-- How many values at the top of the operand stack an instruction may pop or rewrite: those it reads, but for the two
that read without popping (20_memory R61). -/
def stackRewrites : Instr → Nat
  | .duplicate => 0
  | .copy _ => 0
  | i => stackReads i

/-- The heap address an instruction writes, the operand its meaning pops as the address (42_heap R220, 44_io R262,
R263); `none` for an instruction that writes no cell. -/
def writesCell (i : Instr) (s : State) : Option Word :=
  match i with
  | .store => (pop2 s.S).map fun p => p.2.1
  | .inChar => (pop1 s.S).map fun p => p.2
  | .inNum => (pop1 s.S).map fun p => p.2
  | _ => none

/-- The number a list of decimal digits denotes, most significant first. -/
def decimalValue (ds : List Nat) : Nat := ds.foldl (fun n d => 10 * n + d) 0

/-- A list of one or more decimal digits. -/
abbrev isDecimal (ds : List Nat) : Prop := ds ≠ [] ∧ ∀ d ∈ ds, d < 10

/-- The grammar of an `InNum` line and the value it denotes (44_io R265): an optional `+` (43) or `-` (45), one or more
digits (48 to 57), and nothing else. -/
def lineDenotes (line : List Nat) (n : Int) : Prop :=
  ∃ ds : List Nat, isDecimal ds ∧
    ((line = ds.map (· + 48) ∧ n = decimalValue ds) ∨
     (line = 43 :: ds.map (· + 48) ∧ n = decimalValue ds) ∨
     (line = 45 :: ds.map (· + 48) ∧ n = -(decimalValue ds : Int)))

/-- The decimal text of a number (44_io R264): `0`, or the digits with no leading zero, after `-` (45) for a negative
one. -/
def isDecText (text : List Int) (v : Int) : Prop :=
  (v = 0 ∧ text = [48]) ∨
    (∃ ds : List Nat, isDecimal ds ∧ ds.head? ≠ some 0 ∧
      ((0 < v ∧ text = ds.map (fun (d : Nat) => (d : Int) + 48) ∧ v = decimalValue ds) ∨
       (v < 0 ∧ text = 45 :: ds.map (fun (d : Nat) => (d : Int) + 48) ∧ -v = decimalValue ds)))

/-- The index, counted from `k`, of the last `Mark(l)` of a program (43_flow R230); `none` where it has none. -/
def lastMarkFrom (k : Nat) : List Instr → Int → Option Nat
  | [], _ => none
  | i :: is, l =>
    match lastMarkFrom (k + 1) is l with
    | some j => some j
    | none => if i = .mark l then some k else none

/-- The index of the last `Mark(l)` of a program (43_flow R230). -/
def lastMark (P : List Instr) (l : Int) : Option Nat := lastMarkFrom 0 P l

/-- The instructions that raise a run-time error of a kind (60_exceptions R281, "Raised by"). -/
def raisedBy : ErrKind → List Opcode
  | .stackUnderflow =>
    [.duplicate, .copy, .swap, .discard, .slide, .add, .sub, .mul, .div, .mod, .store, .retrieve,
     .jumpIfZero, .jumpIfNegative, .outChar, .outNum, .inChar, .inNum]
  | .indexOutOfRange => [.copy, .slide]
  | .heapKeyError => [.retrieve]
  | .callStackUnderflow => [.ret]
  | .divisionByZero => [.div, .mod]
  | .unresolvedLabel => [.call, .jump, .jumpIfZero, .jumpIfNegative]
  | .inputExhausted => [.inChar, .inNum]
  | .parseError => [.inNum]
  | .stackOverflow => [.push, .duplicate, .copy]
  | .callStackOverflow => [.call]
  | .heapCapacity => [.store, .inChar, .inNum]
  | .noError | .badImpSelector | .badOpcodeSelector | .missingSign | .unexpectedEOF | .operandRange => []
  | .programCapacity | .labelCapacity => []

/-- A decoder outcome without the byte offsets in it (30_encoding R91: an ignored byte changes nothing but
`D.offset`). -/
def forgetOffset (r : FrontResult) : FrontResult :=
  match r with
  | .ok f => .ok { f with D := { f.D with offset := 0 } }
  | .error k _ f => .error k 0 { f with D := { f.D with offset := 0 } }
  | .unreachable => .unreachable

/-- The family an opcode with an operand belongs to, of the two that have such opcodes (30_encoding R100). -/
def operandFamily (op : Opcode) : Family := if op.isNumber then .stack else .flow

/-- The (imp, sel) pairs of the OPCODE stage (31_decoder_fsm R147, the states `st0` to `io2`). -/
def opcodeStates : List (Family × Option Sym) :=
  [(.stack, none), (.stack, some .T), (.stack, some .L), (.arith, none), (.arith, some .S), (.arith, some .T),
   (.heap, none), (.flow, none), (.flow, some .S), (.flow, some .T), (.flow, some .L),
   (.io, none), (.io, some .S), (.io, some .T)]

/-- The accumulator is at its reset value (10_state R26). -/
abbrev emptyAccumulator (d : Decoder) : Prop := d.neg = false ∧ d.mag = 0 ∧ d.nbits = 0

/-- An opcode being given its operand, in the family `D.imp` keeps (31_decoder_fsm R147, its last line). -/
abbrev takesOperand (d : Decoder) (op : Opcode) : Prop :=
  (op.isNumber = true ∨ op.isLabel = true) ∧ d.imp = some (operandFamily op) ∧ d.sel = none

/-- The decoder is in one of the 18 states of 31_decoder_fsm R147, with the rest of its fields as 10_state R24 to R28
and 31_decoder_fsm R141 leave them. -/
def decoderReachable (c : Config) (d : Decoder) : Prop :=
  (c.crlf = .independent → d.cr = false) ∧
  match d.stage with
  | .imp => d.imp = none ∧ (d.sel = none ∨ d.sel = some .T) ∧ d.op = none ∧ emptyAccumulator d
  | .opcode => (∃ f, d.imp = some f ∧ (f, d.sel) ∈ opcodeStates) ∧ d.op = none ∧ emptyAccumulator d
  | .sign => (∃ op, d.op = some op ∧ takesOperand d op) ∧ emptyAccumulator d
  | .bits =>
    (∃ op, d.op = some op ∧ takesOperand d op ∧ (op.isLabel = true → ∀ k ∈ c.labelBits, d.nbits ≤ k)) ∧
    d.mag < 2 ^ d.nbits

/-- A decode error's kind (60_exceptions R281). -/
abbrev isDecodeKind (k : ErrKind) : Prop := 1 ≤ errCode k ∧ errCode k ≤ 7

/-- A run-time error's kind (60_exceptions R281). -/
abbrev isRunKind (k : ErrKind) : Prop := 16 ≤ errCode k ∧ errCode k ≤ 26

/-- The decoder's part of the invariant: it is in a state of R147, and between instructions once decoding has
succeeded (31_decoder_fsm R148). -/
structure DecoderInv (s : State) : Prop where
  reachable : decoderReachable s.cfg s.D
  boundary : s.phase = .ready ∨ s.phase = .run ∨ s.phase = .done ∨ s.phase = .runErr → s.D.atBoundary = true

/-- The status registers agree with `PHASE` (10_state R41 to R44, 60_exceptions R296, R297). -/
def statusInv (s : State) : Prop :=
  match s.phase with
  | .decode => s.err = .noError ∧ s.errpos = ErrPos.none ∧ s.exit = none
  | .ready => s.err = .noError ∧ s.errpos = ErrPos.none ∧ s.exit = none
  | .run => s.err = .noError ∧ s.errpos = ErrPos.none ∧ s.exit = none
  | .done => s.err = .noError ∧ s.errpos = ErrPos.none ∧ s.exit = some s.cfg.exitOk
  | .decodeErr =>
    isDecodeKind s.err ∧
    (∃ off, s.errpos = { offset := some off, icount := some s.P.length, pc := none }) ∧ s.exit = some s.cfg.exitFail
  | .runErr =>
    isRunKind s.err ∧
    s.errpos = { offset := none, icount := none, pc := some s.pc } ∧ s.exit = some s.cfg.exitFail

/-- The program store: `LT` is canonical and names the last `Mark` of each label, every operand is one the encoding
admits, and the two capacities hold (10_state R29 to R31, 31_decoder_fsm R143, R144, R148). -/
structure ProgramInv (s : State) : Prop where
  labelsCanonical : IntMap.wf s.LT
  labels : ∀ l, IntMap.get? s.LT l = lastMark s.P l
  operands : ∀ i ∈ s.P, i.wf s.cfg
  programCap : ∀ k ∈ s.cfg.progCap, s.P.length ≤ k
  labelCap : ∀ k ∈ s.cfg.labelCap, s.LT.length ≤ k

/-- The VM's data: words on the operand stack and in the heap, the heap canonical, the program counter and the return
addresses in range, the capacities hold, the input made of characters until an input error leaves it open
(10_state R32 to R38, 44_io R266). -/
structure DataInv (s : State) : Prop where
  stackWords : ∀ v ∈ s.S, isWord s.cfg.W v
  heapWords : ∀ p ∈ s.H, isWord s.cfg.W p.1 ∧ isWord s.cfg.W p.2
  heapCanonical : Memory.wf s.H
  pcInRange : s.pc ≤ s.P.length
  returnsInRange : ∀ r ∈ s.C, 1 ≤ r ∧ r ≤ s.P.length
  stackCap : ∀ k ∈ s.cfg.stackCap, s.S.length ≤ k
  callCap : ∀ k ∈ s.cfg.callCap, s.C.length ≤ k
  heapCap : ∀ k ∈ s.cfg.heapCap, s.H.length ≤ k
  inputChars : s.phase ≠ .runErr → ∀ ch ∈ s.IN.chars, (ch : Int) < halfRange s.cfg.W

/-- Nothing has run yet: the VM's state is at its reset values until `start` (32_vm_cycle R160). -/
abbrev notStarted (s : State) : Prop :=
  s.phase = .decode ∨ s.phase = .ready ∨ s.phase = .decodeErr →
    s.pc = 0 ∧ s.S = [] ∧ s.C = [] ∧ s.H = [] ∧ s.OUT = []

/-- The invariant of the machine. -/
structure Inv (s : State) : Prop where
  decoder : DecoderInv s
  program : ProgramInv s
  data : DataInv s
  status : statusInv s
  idle : notStarted s

end Sys2Proof.Machine
end

