-- ==== Sys2Proof/Certificates/Slice0/Obligations.lean ====
section
/-! DEFINITION. The statements for the provers, each naming the rule of spec/ it formalises. A result statement writes
the whole next state as the state before with the fields the rule changes, so it is that form's frame as well. -/

section
open Sys2Proof Sys2Proof.Machine

/-! ### The stack family -/

/-- 40_stack R181. -/
def Obligations.PushPushesItsOperand : Prop :=
  ∀ (s : State) (n : Int),
    (Instr.push n).spelling = [.S, .S] ++ operandSpelling n ∧
    (hasRoom s.cfg.stackCap s.S.length →
      exec (.push n) s = .next { s with S := s.S ++ [n], pc := s.pc + 1 }) ∧
    (¬ hasRoom s.cfg.stackCap s.S.length → exec (.push n) s = .next (runError .stackOverflow s))

/-- 40_stack R182. -/
def Obligations.DuplicateCopiesTheTop : Prop :=
  ∀ s : State,
    Instr.duplicate.spelling = [.S, .L, .S] ∧
    (s.S = [] → exec .duplicate s = .next (runError .stackUnderflow s)) ∧
    ∀ (below : List Int) (v : Int), s.S = below ++ [v] →
      (hasRoom s.cfg.stackCap s.S.length →
        exec .duplicate s = .next { s with S := s.S ++ [v], pc := s.pc + 1 }) ∧
      (¬ hasRoom s.cfg.stackCap s.S.length → exec .duplicate s = .next (runError .stackOverflow s))

/-- 40_stack R183: the element at depth `n` is the one with `n` elements above it. -/
def Obligations.CopyPushesTheElementAtDepth : Prop :=
  ∀ s : State,
    (∀ n : Int, (Instr.copy n).spelling = [.S, .T, .S] ++ operandSpelling n) ∧
    (∀ n : Int, n < 0 → exec (.copy n) s = .next (runError .indexOutOfRange s)) ∧
    (∀ n : Nat, s.S.length ≤ n → exec (.copy n) s = .next (runError .stackUnderflow s)) ∧
    ∀ (below : List Int) (v : Int) (above : List Int), s.S = below ++ v :: above →
      (hasRoom s.cfg.stackCap s.S.length →
        exec (.copy above.length) s = .next { s with S := s.S ++ [v], pc := s.pc + 1 }) ∧
      (¬ hasRoom s.cfg.stackCap s.S.length →
        exec (.copy above.length) s = .next (runError .stackOverflow s))

/-- 40_stack R184. -/
def Obligations.SwapExchangesTheTopTwo : Prop :=
  ∀ s : State,
    Instr.swap.spelling = [.S, .L, .T] ∧
    (s.S.length < 2 → exec .swap s = .next (runError .stackUnderflow s)) ∧
    ∀ (below : List Int) (a b : Int), s.S = below ++ [a, b] →
      exec .swap s = .next { s with S := below ++ [b, a], pc := s.pc + 1 }

/-- 40_stack R185. -/
def Obligations.DiscardDropsTheTop : Prop :=
  ∀ s : State,
    Instr.discard.spelling = [.S, .L, .L] ∧
    (s.S = [] → exec .discard s = .next (runError .stackUnderflow s)) ∧
    ∀ (below : List Int) (v : Int), s.S = below ++ [v] → exec .discard s = .next { s with S := below, pc := s.pc + 1 }

/-- 40_stack R186. -/
def Obligations.SlideRemovesBelowTheTop : Prop :=
  ∀ s : State,
    (∀ n : Int, (Instr.slide n).spelling = [.S, .T, .L] ++ operandSpelling n) ∧
    (∀ n : Int, n < 0 → exec (.slide n) s = .next (runError .indexOutOfRange s)) ∧
    (∀ n : Nat, s.S.length < n + 1 → exec (.slide n) s = .next (runError .stackUnderflow s)) ∧
    ∀ (below mid : List Int) (t : Int), s.S = below ++ mid ++ [t] →
      exec (.slide mid.length) s = .next { s with S := below ++ [t], pc := s.pc + 1 }

/-! ### The arithmetic family -/

/-- 41_arithmetic R201, R202, R203: `a` is the lower element, `b` the top. -/
def Obligations.AddSubMulWrapTheExactResult : Prop :=
  ∀ s : State,
    Instr.add.spelling = [.T, .S, .S, .S] ∧ Instr.sub.spelling = [.T, .S, .S, .T] ∧
    Instr.mul.spelling = [.T, .S, .S, .L] ∧
    (s.S.length < 2 →
      exec .add s = .next (runError .stackUnderflow s) ∧
      exec .sub s = .next (runError .stackUnderflow s) ∧
      exec .mul s = .next (runError .stackUnderflow s)) ∧
    ∀ (below : List Int) (a b : Int), s.S = below ++ [a, b] →
      exec .add s = .next { s with S := below ++ [wrap s.cfg.W (a + b)], pc := s.pc + 1 } ∧
      exec .sub s = .next { s with S := below ++ [wrap s.cfg.W (a - b)], pc := s.pc + 1 } ∧
      exec .mul s = .next { s with S := below ++ [wrap s.cfg.W (a * b)], pc := s.pc + 1 }

/-- 41_arithmetic R204. -/
def Obligations.DivPushesTheQuotient : Prop :=
  ∀ s : State,
    Instr.div.spelling = [.T, .S, .T, .S] ∧
    (s.S.length < 2 → exec .div s = .next (runError .stackUnderflow s)) ∧
    ∀ (below : List Int) (a b : Int), s.S = below ++ [a, b] →
      (b = 0 → exec .div s = .next (runError .divisionByZero s)) ∧
      (b ≠ 0 → s.cfg.divmod = .truncating →
        exec .div s = .next { s with S := below ++ [wrap s.cfg.W (Int.tdiv a b)], pc := s.pc + 1 }) ∧
      (b ≠ 0 → s.cfg.divmod = .flooring →
        exec .div s = .next { s with S := below ++ [wrap s.cfg.W (Int.fdiv a b)], pc := s.pc + 1 }) ∧
      (a = minWord s.cfg.W → b = -1 → 1 ≤ s.cfg.W →
        exec .div s = .next { s with S := below ++ [minWord s.cfg.W], pc := s.pc + 1 })

/-- 41_arithmetic R205: also, the remainder is smaller than the divisor, has the sign of the dividend (truncating) or of
the divisor (flooring) or is zero, and belongs to the quotient of `Div`. -/
def Obligations.ModPushesTheRemainder : Prop :=
  ∀ s : State,
    Instr.mod.spelling = [.T, .S, .T, .T] ∧
    (s.S.length < 2 → exec .mod s = .next (runError .stackUnderflow s)) ∧
    ∀ (below : List Int) (a b : Int), s.S = below ++ [a, b] →
      (b = 0 → exec .mod s = .next (runError .divisionByZero s)) ∧
      (b ≠ 0 → s.cfg.divmod = .truncating →
        exec .mod s = .next { s with S := below ++ [Int.tmod a b], pc := s.pc + 1 } ∧
        (Int.tmod a b).natAbs < b.natAbs ∧ a = b * Int.tdiv a b + Int.tmod a b ∧
        (0 ≤ a → 0 ≤ Int.tmod a b) ∧ (a ≤ 0 → Int.tmod a b ≤ 0)) ∧
      (b ≠ 0 → s.cfg.divmod = .flooring →
        exec .mod s = .next { s with S := below ++ [Int.fmod a b], pc := s.pc + 1 } ∧
        (Int.fmod a b).natAbs < b.natAbs ∧ a = b * Int.fdiv a b + Int.fmod a b ∧
        (0 < b → 0 ≤ Int.fmod a b) ∧ (b < 0 → Int.fmod a b ≤ 0))

/-- 00_scope R9: `wrap(x)` is the unique word congruent to `x` modulo `2^W`. -/
def Obligations.WrapIsTheCongruentWord : Prop :=
  ∀ (W : Nat) (x : Int), 1 ≤ W →
    isWord W (wrap W x) ∧ ((2 ^ W : Nat) : Int) ∣ wrap W x - x ∧
    ∀ y : Int, isWord W y → ((2 ^ W : Nat) : Int) ∣ y - x → y = wrap W x

/-! ### The heap family -/

/-- 42_heap R220: the value on top, the address below it. -/
def Obligations.StoreWritesOneCell : Prop :=
  ∀ s : State,
    Instr.store.spelling = [.T, .T, .S] ∧
    (s.S.length < 2 → exec .store s = .next (runError .stackUnderflow s)) ∧
    ∀ (below : List Int) (a v : Int), s.S = below ++ [a, v] →
      (heapRoom s a →
        ∃ H', exec .store s = .next { s with S := below, H := H', pc := s.pc + 1 } ∧
          ∀ x, IntMap.get? H' x = if x = a then some v else IntMap.get? s.H x) ∧
      (¬ heapRoom s a → exec .store s = .next (runError .heapCapacity s))

/-- 42_heap R221. -/
def Obligations.RetrieveReadsOneCell : Prop :=
  ∀ s : State,
    Instr.retrieve.spelling = [.T, .T, .T] ∧
    (s.S = [] → exec .retrieve s = .next (runError .stackUnderflow s)) ∧
    ∀ (below : List Int) (a : Int), s.S = below ++ [a] →
      (∀ v, IntMap.get? s.H a = some v →
        exec .retrieve s = .next { s with S := below ++ [v], pc := s.pc + 1 }) ∧
      (IntMap.get? s.H a = none → s.cfg.heapDefault = .fault →
        exec .retrieve s = .next (runError .heapKeyError s)) ∧
      (IntMap.get? s.H a = none → s.cfg.heapDefault = .zero →
        exec .retrieve s = .next { s with S := below ++ [0], pc := s.pc + 1 })

/-- 20_memory R65: what `Store` wrote is what `Retrieve` reads from that heap, and no other cell has changed. -/
def Obligations.RetrieveAfterStoreYieldsTheValue : Prop :=
  ∀ (s t : State) (below : List Int) (a v : Int), s.S = below ++ [a, v] → heapRoom s a → exec .store s = .next t →
    (∀ x, x ≠ a → IntMap.get? t.H x = IntMap.get? s.H x) ∧
    ∀ (u : State) (rest : List Int), u.H = t.H → u.S = rest ++ [a] →
      exec .retrieve u = .next { u with S := rest ++ [v], pc := u.pc + 1 }

/-! ### The flow family -/

/-- 43_flow R231. -/
def Obligations.MarkOnlyAdvances : Prop :=
  ∀ (s : State) (l : Int),
    (Instr.mark l).spelling = [.L, .S, .S] ++ operandSpelling l ∧
    exec (.mark l) s = .next { s with pc := s.pc + 1 }

/-- 43_flow R232. -/
def Obligations.CallSavesTheReturnAddress : Prop :=
  ∀ (s : State) (l : Int),
    (Instr.call l).spelling = [.L, .S, .T] ++ operandSpelling l ∧
    (¬ hasRoom s.cfg.callCap s.C.length → exec (.call l) s = .next (runError .callStackOverflow s)) ∧
    (hasRoom s.cfg.callCap s.C.length → IntMap.get? s.LT l = none →
      exec (.call l) s = .next (runError .unresolvedLabel s)) ∧
    (∀ t, hasRoom s.cfg.callCap s.C.length → IntMap.get? s.LT l = some t →
      exec (.call l) s = .next { s with C := s.C ++ [s.pc + 1], pc := t })

/-- 43_flow R233. -/
def Obligations.JumpGoesToTheLabel : Prop :=
  ∀ (s : State) (l : Int),
    (Instr.jump l).spelling = [.L, .S, .L] ++ operandSpelling l ∧
    (IntMap.get? s.LT l = none → exec (.jump l) s = .next (runError .unresolvedLabel s)) ∧
    (∀ t, IntMap.get? s.LT l = some t → exec (.jump l) s = .next { s with pc := t })

/-- 43_flow R234, R235: both consume the tested value, taken or not. -/
def Obligations.ConditionalJumpsTestAndPop : Prop :=
  ∀ (s : State) (l : Int),
    (Instr.jumpIfZero l).spelling = [.L, .T, .S] ++ operandSpelling l ∧
    (Instr.jumpIfNegative l).spelling = [.L, .T, .T] ++ operandSpelling l ∧
    (s.S = [] →
      exec (.jumpIfZero l) s = .next (runError .stackUnderflow s) ∧
      exec (.jumpIfNegative l) s = .next (runError .stackUnderflow s)) ∧
    ∀ (below : List Int) (x : Int), s.S = below ++ [x] →
      (x = 0 →
        (∀ t, IntMap.get? s.LT l = some t → exec (.jumpIfZero l) s = .next { s with S := below, pc := t }) ∧
        (IntMap.get? s.LT l = none → exec (.jumpIfZero l) s = .next (runError .unresolvedLabel s))) ∧
      (x < 0 →
        (∀ t, IntMap.get? s.LT l = some t → exec (.jumpIfNegative l) s = .next { s with S := below, pc := t }) ∧
        (IntMap.get? s.LT l = none → exec (.jumpIfNegative l) s = .next (runError .unresolvedLabel s))) ∧
      (s.cfg.labelResolve = .onTaken ∨ IntMap.get? s.LT l ≠ none →
        (x ≠ 0 → exec (.jumpIfZero l) s = .next { s with S := below, pc := s.pc + 1 }) ∧
        (0 ≤ x → exec (.jumpIfNegative l) s = .next { s with S := below, pc := s.pc + 1 })) ∧
      (s.cfg.labelResolve = .onExecute → IntMap.get? s.LT l = none →
        exec (.jumpIfZero l) s = .next (runError .unresolvedLabel s) ∧
        exec (.jumpIfNegative l) s = .next (runError .unresolvedLabel s))

/-- 43_flow R236. -/
def Obligations.ReturnGoesToTheSavedAddress : Prop :=
  ∀ s : State,
    Instr.ret.spelling = [.L, .T, .L] ∧
    (s.C = [] → exec .ret s = .next (runError .callStackUnderflow s)) ∧
    ∀ (below : List Nat) (r : Nat), s.C = below ++ [r] → exec .ret s = .next { s with C := below, pc := r }

/-- 43_flow R237. -/
def Obligations.EndHaltsSuccessfully : Prop :=
  ∀ s : State,
    Instr.endProg.spelling = [.L, .L, .L] ∧
    exec .endProg s = .next { s with phase := .done, exit := some s.cfg.exitOk }

/-- 43_flow R238, 40_stack R184 and R185, their laws: a return to a call's entry resumes after the call, a push and a
discard leave the stack as it was, and so do two swaps. -/
def Obligations.PairsThatUndoEachOther : Prop :=
  (∀ (s t u : State) l, hasRoom s.cfg.callCap s.C.length → IntMap.get? s.LT l ≠ none →
    exec (.call l) s = .next t → u.C = t.C →
    exec .ret u = .next { u with C := s.C, pc := s.pc + 1 }) ∧
  (∀ (s t : State) n, hasRoom s.cfg.stackCap s.S.length → exec (.push n) s = .next t →
    exec .discard t = .next { s with pc := s.pc + 2 }) ∧
  (∀ s t : State, 2 ≤ s.S.length → exec .swap s = .next t →
    exec .swap t = .next { s with pc := s.pc + 2 })

/-! ### The I/O family -/

/-- 44_io R260, R261. -/
def Obligations.OutputPopsAndEmits : Prop :=
  ∀ s : State,
    Instr.outChar.spelling = [.T, .L, .S, .S] ∧ Instr.outNum.spelling = [.T, .L, .S, .T] ∧
    (s.S = [] →
      exec .outChar s = .next (runError .stackUnderflow s) ∧
      exec .outNum s = .next (runError .stackUnderflow s)) ∧
    ∀ (below : List Int) (v : Int), s.S = below ++ [v] →
      exec .outChar s = .next { s with S := below, OUT := s.OUT ++ [v], pc := s.pc + 1 } ∧
      ∃ text, isDecText text v ∧
        exec .outNum s = .next { s with S := below, OUT := s.OUT ++ text, pc := s.pc + 1 }

/-- 44_io R262, with the hold of 32_vm_cycle R168. -/
def Obligations.InCharStoresOneCharacter : Prop :=
  ∀ s : State,
    Instr.inChar.spelling = [.T, .L, .T, .S] ∧
    (s.IN.chars = [] → s.IN.ended = false → exec .inChar s = .next s) ∧
    (s.IN.chars = [] → s.IN.ended = true → exec .inChar s = .next (inputError .inputExhausted s)) ∧
    ∀ ch rest, s.IN.chars = ch :: rest →
      (s.S = [] → exec .inChar s = .next (inputError .stackUnderflow s)) ∧
      ∀ (below : List Int) (a : Int), s.S = below ++ [a] →
        (heapRoom s a →
          ∃ H', exec .inChar s =
              .next { s with S := below, H := H', IN := { s.IN with chars := rest }, pc := s.pc + 1 } ∧
            ∀ x, IntMap.get? H' x = if x = a then some (ch : Int) else IntMap.get? s.H x) ∧
        (¬ heapRoom s a → exec .inChar s = .next (inputError .heapCapacity s))

/-- 44_io R263, with the grammar of R265 and the hold of 32_vm_cycle R168; 10 is the line feed. -/
def Obligations.InNumStoresTheNumberOfALine : Prop :=
  ∀ s : State,
    Instr.inNum.spelling = [.T, .L, .T, .T] ∧
    (10 ∉ s.IN.chars → s.IN.ended = false → exec .inNum s = .next s) ∧
    (10 ∉ s.IN.chars → s.IN.ended = true → exec .inNum s = .next (inputError .inputExhausted s)) ∧
    ∀ line rest, s.IN.chars = line ++ 10 :: rest → 10 ∉ line →
      ((∀ n, ¬ lineDenotes line n) → exec .inNum s = .next (inputError .parseError s)) ∧
      (∀ n, lineDenotes line n → ¬ isWord s.cfg.W n → exec .inNum s = .next (inputError .parseError s)) ∧
      (∀ n, lineDenotes line n → isWord s.cfg.W n → s.S = [] →
        exec .inNum s = .next (inputError .stackUnderflow s)) ∧
      ∀ (n : Int) (below : List Int) (a : Int), lineDenotes line n → isWord s.cfg.W n → s.S = below ++ [a] →
        (heapRoom s a →
          ∃ H', exec .inNum s =
              .next { s with S := below, H := H', IN := { s.IN with chars := rest }, pc := s.pc + 1 } ∧
            ∀ x, IntMap.get? H' x = if x = a then some n else IntMap.get? s.H x) ∧
        (¬ heapRoom s a → exec .inNum s = .next (inputError .heapCapacity s))

/-- 44_io R264: `dec(v)` is the one decimal text of `v`. -/
def Obligations.DecIsTheDecimalText : Prop :=
  ∀ (v : Int) (text : List Int), text = dec v ↔ isDecText text v

/-- 44_io R265. -/
def Obligations.ParseFollowsTheGrammar : Prop :=
  ∀ (line : List Nat) (n : Int), parseLine line = some n ↔ lineDenotes line n

/-! ### Errors -/

/-- 60_exceptions R297: what a run-time error changes. Of the content of `IN` after an error of an input instruction
nothing is said (44_io R266), nor of the model's own count of free values. -/
def Obligations.RunErrorEntry : Prop :=
  ∀ s t : State, s.inbox = [] → s.phase = .run → step s = .next t → t.phase = .runErr →
    isRunKind t.err ∧
    t = { s with
      err := t.err
      errpos := { s.errpos with pc := some s.pc }
      phase := .runErr
      exit := some s.cfg.exitFail
      IN := t.IN
      freeDraws := t.freeDraws } ∧
    (s.P[s.pc]? ≠ some .inChar → s.P[s.pc]? ≠ some .inNum → t.IN = s.IN ∧ t.freeDraws = s.freeDraws)

/-- 60_exceptions R296: what a decode error changes, and that nothing else changes but the byte counted by the step
that raised it (31_decoder_fsm R121, R122). -/
def Obligations.DecodeErrorEntry : Prop :=
  ∀ s t : State, s.phase = .decode → step s = .next t → t.phase = .decodeErr →
    isDecodeKind t.err ∧
    t = { s with
      inbox := s.inbox.tail
      D := { s.D with offset := t.D.offset, cr := t.D.cr }
      err := t.err
      errpos := { s.errpos with offset := some s.D.offset, icount := some s.P.length }
      phase := .decodeErr
      exit := some s.cfg.exitFail }

/-- 60_exceptions R298: a failing instruction has changed nothing but the error registers, and `IN` where it is an
input instruction. -/
def Obligations.RunErrorsArePrecise : Prop :=
  ∀ (i : Instr) (s t : State), s.phase = .run → exec i s = .next t → t.phase = .runErr →
    isRunKind t.err ∧
    t = { runError t.err s with IN := t.IN, freeDraws := t.freeDraws } ∧
    (i ≠ .inChar → i ≠ .inNum → t = runError t.err s)

/-- 60_exceptions R288: `StackUnderflow` is raised when the stack holds fewer values than the instruction reads, by an
input instruction once its input is at hand (44_io R262, R263), and only then. -/
def Obligations.UnderflowExactlyWhenTooFewValues : Prop :=
  (∀ (i : Instr) (s : State), i ≠ .inChar → i ≠ .inNum → s.S.length < stackReads i →
    exec i s = .next (runError .stackUnderflow s)) ∧
  (∀ s : State, s.S.length < stackReads .inChar → s.IN.chars ≠ [] →
    exec .inChar s = .next (inputError .stackUnderflow s)) ∧
  (∀ (s : State) line rest n, s.S.length < stackReads .inNum → s.IN.chars = line ++ 10 :: rest → 10 ∉ line →
    lineDenotes line n → isWord s.cfg.W n → exec .inNum s = .next (inputError .stackUnderflow s)) ∧
  (∀ (i : Instr) (s t : State), s.phase = .run → exec i s = .next t → t.phase = .runErr →
    t.err = .stackUnderflow → s.S.length < stackReads i)

/-- 60_exceptions R299, row by row, and its last sentence: in the decoder the range check comes before the capacities. -/
def Obligations.ErrorPriority : Prop :=
  ∀ s : State,
    (s.S = [0] → exec .div s = .next (runError .stackUnderflow s) ∧ exec .mod s = .next (runError .stackUnderflow s)) ∧
    (∀ n : Int, n < 0 → s.S = [] →
      exec (.copy n) s = .next (runError .indexOutOfRange s) ∧
      exec (.slide n) s = .next (runError .indexOutOfRange s)) ∧
    (¬ hasRoom s.cfg.stackCap s.S.length →
      (s.S = [] → exec .duplicate s = .next (runError .stackUnderflow s)) ∧
      ∀ n : Nat, s.S.length ≤ n → exec (.copy n) s = .next (runError .stackUnderflow s)) ∧
    (∀ l, ¬ hasRoom s.cfg.callCap s.C.length → IntMap.get? s.LT l = none →
      exec (.call l) s = .next (runError .callStackOverflow s)) ∧
    (∀ l, s.S = [] → IntMap.get? s.LT l = none →
      exec (.jumpIfZero l) s = .next (runError .stackUnderflow s) ∧
      exec (.jumpIfNegative l) s = .next (runError .stackUnderflow s)) ∧
    (s.IN = { chars := [], ended := true } → s.S = [] →
      exec .inChar s = .next (inputError .inputExhausted s) ∧
      exec .inNum s = .next (inputError .inputExhausted s)) ∧
    (∀ line rest, s.IN.chars = line ++ 10 :: rest → 10 ∉ line → (∀ n, ¬ lineDenotes line n) → s.S = [] →
      exec .inNum s = .next (inputError .parseError s)) ∧
    (¬ hasRoom s.cfg.heapCap s.H.length →
      (s.S.length < 2 → exec .store s = .next (runError .stackUnderflow s)) ∧
      (s.S = [] → s.IN.chars ≠ [] → exec .inChar s = .next (inputError .stackUnderflow s)) ∧
      (∀ line rest n, s.S = [] → s.IN.chars = line ++ 10 :: rest → 10 ∉ line → lineDenotes line n →
        isWord s.cfg.W n → exec .inNum s = .next (inputError .stackUnderflow s))) ∧
    (∀ (c : Config) (f : Front) (op : Opcode), f.D.stage = .bits → f.D.op = some op → op.isNumber = true →
      f.D.cr = false → ¬ isWord c.W (if f.D.neg = true then -(f.D.mag : Int) else f.D.mag) →
      ¬ hasRoom c.progCap f.P.length →
      Front.byte c f 0x0A = .error .operandRange f.D.offset { f with D := (f.D.take c 0x0A).1 })

/-- 60_exceptions R281: the codes, and which instructions raise which kind. -/
def Obligations.ErrorCodesAndTheirRaisers : Prop :=
  ([ErrKind.noError, .badImpSelector, .badOpcodeSelector, .missingSign, .unexpectedEOF, .operandRange,
    .programCapacity, .labelCapacity].map errCode = [0, 1, 2, 3, 4, 5, 6, 7]) ∧
  ([ErrKind.stackUnderflow, .indexOutOfRange, .heapKeyError, .callStackUnderflow, .divisionByZero, .unresolvedLabel,
    .inputExhausted, .parseError, .stackOverflow, .callStackOverflow, .heapCapacity].map errCode =
      [16, 17, 18, 19, 20, 21, 22, 23, 24, 25, 26]) ∧
  ∀ (i : Instr) (s t : State), s.phase = .run → exec i s = .next t → t.phase = .runErr → i.opcode ∈ raisedBy t.err

/-- In `DONE`, `DECODE_ERR` and `RUN_ERR` every step answers a next state, and none but a reset changes anything of the
instance. That only a reset leaves these phases is 10_state R41's for the three, and 60_exceptions R300's for the two
errors; that a `byte` and a `start` are ignored there is 31_decoder_fsm R121's and 32_vm_cycle R160's. THE MODEL'S
CHOICE: that a delivery of runtime input, whatever its code, leaves `IN` alone and is never refused there (log entry 5,
DESIGN CHOICE), and that a late `end` is ignored (log entry 16, DEDUCED). -/
def Obligations.OnlyResetLeavesAFinalPhase : Prop :=
  ∀ s : State, s.phase = .done ∨ s.phase = .decodeErr ∨ s.phase = .runErr →
    (s.inbox.head? ≠ some .reset → step s = .next { s with inbox := s.inbox.tail }) ∧
    (s.inbox.head? = some .reset → ∃ t, step s = .next t ∧ t.phase = .decode)

/-- 44_io R266, 32_vm_cycle R167: nothing can read what an input instruction's error leaves in `IN`; the two rules give
the non-interference only. THE MODEL'S CHOICE (log entry 5, DESIGN CHOICE): that a delivery in `RUN_ERR` is ignored,
which is what `t.IN = s.IN`, `u = { t with IN := x }` and the next state on a code out of range say. Take two states
after such an error that differ in `IN` alone: each goes on to a next state, and the two are equal (after a reset) or
again differ in `IN` alone with the run still over. Step by step this makes two whole lives that differ in `IN`
alone. -/
def Obligations.NothingReadsTheInputAfterAnError : Prop :=
  ∀ (s : State) (x : InStream), s.phase = .runErr →
    ∃ t u, step s = .next t ∧ step { s with IN := x } = .next u ∧
      (u = t ∨ (t.phase = .runErr ∧ t.IN = s.IN ∧ u = { t with IN := x }))

/-- 32_vm_cycle R168, 10_state R38; that a step takes the waiting event is the model's (log entry 2). While the run is not over and the end-of-stream mark has not come, a delivered
character goes behind those delivered before it and the mark closes the stream, and nothing else changes. -/
def Obligations.DeliveriesExtendTheInput : Prop :=
  ∀ (s : State) (rest : List HostEvent), s.phase = .decode ∨ s.phase = .ready ∨ s.phase = .run →
    s.IN.ended = false →
    (∀ ch : Nat, s.inbox = .inputChar ch :: rest → (ch : Int) < halfRange s.cfg.W →
      step s = .next { s with inbox := rest, IN := { chars := s.IN.chars ++ [ch], ended := false } }) ∧
    (s.inbox = .inputEnd :: rest →
      step s = .next { s with inbox := rest, IN := { chars := s.IN.chars, ended := true } })

/-- No instruction stops the machine, whatever the state: each answers a next state; and the block stops only on a host
delivery that is no character of the runtime input while it is open, from every state whose decoder is in a state of
31_decoder_fsm R147. The stop itself is the model's choice (log entry 5). -/
def Obligations.NoStopButOnAForeignDelivery : Prop :=
  (∀ (i : Instr) (s : State), ∃ t, exec i s = .next t) ∧
  ∀ s : State, decoderReachable s.cfg s.D →
    (∃ t, step s = .next t) ∨
    (∃ ch : Nat, s.inbox.head? = some (.inputChar ch) ∧ halfRange s.cfg.W ≤ (ch : Int) ∧ s.IN.ended = false ∧
      (s.phase = .decode ∨ s.phase = .ready ∨ s.phase = .run))

/-! ### The decoder -/

/-- 31_decoder_fsm R122. -/
def Obligations.TokenizerTable : Prop :=
  (∀ cr : Bool,
    tokenize .independent cr 0x20 = (some .S, cr) ∧ tokenize .independent cr 0x09 = (some .T, cr) ∧
    tokenize .independent cr 0x0A = (some .L, cr) ∧ tokenize .independent cr 0x0D = (some .L, cr)) ∧
  (∀ (cr : Bool) (b : Byte), b ≠ 0x20 → b ≠ 0x09 → b ≠ 0x0A → b ≠ 0x0D →
    tokenize .independent cr b = (none, cr)) ∧
  (∀ (cr : Bool) (b : Byte), (tokenize .merge cr b).2 = decide (b = 0x0D)) ∧
  (tokenize .merge true 0x0A).1 = none ∧
  (∀ (cr : Bool) (b : Byte), ¬ (b = 0x0A ∧ cr = true) →
    (tokenize .merge cr b).1 = (tokenize .independent cr b).1)

/-- 31_decoder_fsm R121 (with R123 for an ignored byte): one decoder step on a byte. -/
def Obligations.DecoderStepOnAByte : Prop :=
  ∀ (s : State) (b : Byte) (rest : List HostEvent), s.inbox = .byte b :: rest →
    (s.phase ≠ .decode → step s = .next { s with inbox := rest }) ∧
    (s.phase = .decode →
      ∀ (x : Option Sym) (cr : Bool) (d : Decoder), tokenize s.cfg.crlf s.D.cr b = (x, cr) →
        d = { s.D with offset := s.D.offset + 1, cr := cr } →
        (x = none → step s = .next { s with inbox := rest, D := d }) ∧
        ∀ y, x = some y →
          (∀ d', d.symbol s.cfg y = .goOn d' → step s = .next { s with inbox := rest, D := d' }) ∧
          (∀ i f, d.symbol s.cfg y = .complete i →
            Front.complete s.cfg { D := d, P := s.P, LT := s.LT } s.D.offset i = .ok f →
            step s = .next { s with inbox := rest, D := f.D, P := f.P, LT := f.LT }) ∧
          (∀ i k f, d.symbol s.cfg y = .complete i →
            Front.complete s.cfg { D := d, P := s.P, LT := s.LT } s.D.offset i = .error k s.D.offset f →
            step s = .next (decodeError k s.D.offset { s with inbox := rest, D := f.D, P := f.P, LT := f.LT })) ∧
          (∀ k, d.symbol s.cfg y = .error k →
            step s = .next (decodeError k s.D.offset { s with inbox := rest, D := d })))

/-- 31_decoder_fsm R125. -/
def Obligations.ImpStageSelectsTheFamily : Prop :=
  ∀ (c : Config) (d : Decoder), d.stage = .imp →
    (d.sel = none →
      d.symbol c .S = .goOn { d with imp := some .stack, stage := .opcode } ∧
      d.symbol c .T = .goOn { d with sel := some .T } ∧
      d.symbol c .L = .goOn { d with imp := some .flow, stage := .opcode }) ∧
    (d.sel = some .T →
      d.symbol c .S = .goOn { d with imp := some .arith, sel := none, stage := .opcode } ∧
      d.symbol c .T = .goOn { d with imp := some .heap, sel := none, stage := .opcode } ∧
      d.symbol c .L = .goOn { d with imp := some .io, sel := none, stage := .opcode })

/-- 31_decoder_fsm R127 to R138, a row per state of R147's table: what `S`, `T`, `L` do. -/
def Obligations.OpcodeStageTable : Prop :=
  ∀ (c : Config) (d : Decoder), d.stage = .opcode →
    let more (s : Sym) : Move := .goOn { d with sel := some s }
    let need (op : Opcode) : Move := .goOn { d with op := some op, sel := none, stage := .sign }
    let bad : Move := .error .badOpcodeSelector
    let row (f : Family) (sel : Option Sym) (s t l : Move) : Prop :=
      d.imp = some f → d.sel = sel → d.symbol c .S = s ∧ d.symbol c .T = t ∧ d.symbol c .L = l
    row .stack none (need .push) (more .T) (more .L) ∧
    row .stack (some .T) (need .copy) bad (need .slide) ∧
    row .stack (some .L) (.complete .duplicate) (.complete .swap) (.complete .discard) ∧
    row .arith none (more .S) (more .T) bad ∧
    row .arith (some .S) (.complete .add) (.complete .sub) (.complete .mul) ∧
    row .arith (some .T) (.complete .div) (.complete .mod) bad ∧
    row .heap none (.complete .store) (.complete .retrieve) bad ∧
    row .flow none (more .S) (more .T) (more .L) ∧
    row .flow (some .S) (need .mark) (need .call) (need .jump) ∧
    row .flow (some .T) (need .jumpIfZero) (need .jumpIfNegative) (.complete .ret) ∧
    row .flow (some .L) bad bad (.complete .endProg) ∧
    row .io none (more .S) (more .T) bad ∧
    row .io (some .S) (.complete .outChar) (.complete .outNum) bad ∧
    row .io (some .T) (.complete .inChar) (.complete .inNum) bad

/-- 30_encoding R103: the nine strings, each refused at its last symbol, and no other pair of a state and a symbol is
bad. -/
def Obligations.NineBadSelectors : Prop :=
  (∀ syms ∈ ([[.S, .T, .T], [.T, .S, .L], [.T, .S, .T, .L], [.T, .T, .L], [.L, .L, .S], [.L, .L, .T], [.T, .L, .L],
      [.T, .L, .S, .L], [.T, .L, .T, .L]] : List (List Sym)),
    ∀ rest, decodeInstr Config.standard Decoder.reset (syms.map Sym.byte ++ rest) =
      .error .badOpcodeSelector (syms.length - 1)) ∧
  ∀ f sel s, (f, sel) ∈ opcodeStates →
    (selectOpcode f sel s = .bad ↔
      (f, sel, s) ∈ ([(.stack, some .T, .T), (.arith, none, .L), (.arith, some .T, .L), (.heap, none, .L),
        (.flow, some .L, .S), (.flow, some .L, .T), (.io, none, .L), (.io, some .S, .L), (.io, some .T, .L)] :
          List (Family × Option Sym × Sym)))

/-- 31_decoder_fsm R139 to R142: the sign, the bits, the terminator. -/
def Obligations.OperandStages : Prop :=
  ∀ (c : Config) (d : Decoder),
    (d.stage = .sign →
      d.symbol c .S = .goOn { d with neg := false, mag := 0, nbits := 0, stage := .bits } ∧
      d.symbol c .T = .goOn { d with neg := true, mag := 0, nbits := 0, stage := .bits } ∧
      d.symbol c .L = .error .missingSign) ∧
    ∀ op, d.stage = .bits → d.op = some op →
      (op.isLabel = true → hasRoom c.labelBits d.nbits →
        d.symbol c .S = .goOn { d with mag := 2 * d.mag, nbits := d.nbits + 1 } ∧
        d.symbol c .T = .goOn { d with mag := 2 * d.mag + 1, nbits := d.nbits + 1 }) ∧
      (op.isLabel = true → ¬ hasRoom c.labelBits d.nbits →
        d.symbol c .S = .error .operandRange ∧ d.symbol c .T = .error .operandRange) ∧
      (op.isNumber = true → c.rangeCheck = .atTerminator →
        d.symbol c .S = .goOn { d with mag := 2 * d.mag, nbits := d.nbits + 1 } ∧
        d.symbol c .T = .goOn { d with mag := 2 * d.mag + 1, nbits := d.nbits + 1 }) ∧
      (op.isNumber = true → c.rangeCheck = .early → ∀ (s : Sym) (bit : Nat), (s, bit) ∈ [(Sym.S, 0), (Sym.T, 1)] →
        ((2 ^ (c.W - 1) < 2 * d.mag + bit → d.symbol c s = .error .operandRange) ∧
         (2 * d.mag + bit ≤ 2 ^ (c.W - 1) →
          d.symbol c s = .goOn { d with mag := 2 * d.mag + bit, nbits := d.nbits + 1 }))) ∧
      ∀ v : Int, v = (if d.neg = true then -(d.mag : Int) else d.mag) →
        (op.isNumber = true → ¬ isWord c.W v → d.symbol c .L = .error .operandRange) ∧
        (op.isLabel = true ∨ isWord c.W v → d.symbol c .L = .complete (op.instr v))

/-- 31_decoder_fsm R143, R144. -/
def Obligations.CompletingAnInstruction : Prop :=
  ∀ (c : Config) (f : Front) (off : Nat) (i : Instr),
    (¬ hasRoom c.progCap f.P.length → Front.complete c f off i = .error .programCapacity off f) ∧
    (∀ l, hasRoom c.progCap f.P.length → i = .mark l → IntMap.get? f.LT l = none →
      ¬ hasRoom c.labelCap f.LT.length → Front.complete c f off i = .error .labelCapacity off f) ∧
    (hasRoom c.progCap f.P.length →
      (∀ l, i = .mark l → IntMap.get? f.LT l ≠ none ∨ hasRoom c.labelCap f.LT.length) →
      ∃ LT', Front.complete c f off i =
          .ok { D := { f.D with
                  stage := .imp, imp := none, sel := none, op := none, neg := false, mag := 0, nbits := 0 }
                P := f.P ++ [i]
                LT := LT' } ∧
        ∀ l, IntMap.get? LT' l = if i = .mark l then some f.P.length else IntMap.get? f.LT l)

/-- 31_decoder_fsm R145. -/
def Obligations.EndOfStream : Prop :=
  ∀ (s : State) (rest : List HostEvent), s.inbox = .eof :: rest → s.phase = .decode →
    (s.D.stage = .imp → s.D.sel = none → step s = .next { s with inbox := rest, phase := .ready }) ∧
    (¬ (s.D.stage = .imp ∧ s.D.sel = none) →
      step s = .next (decodeError .unexpectedEOF s.D.offset { s with inbox := rest }))

/-- 30_encoding R96, R97, R100, R102: from between two instructions, the canonical spelling of every well-formed
instruction decodes to it and leaves the bytes after it, under every configuration. -/
def Obligations.DecodeEncodeAgree : Prop :=
  ∀ (c : Config) (d : Decoder) (i : Instr) (rest : List Byte),
    i.wf c → d.restart = d → d.cr = false → decodeInstr c d (encode i ++ rest) = .instr i rest

/-- 31_decoder_fsm R143 to R145, R148, 32_vm_cycle R160, 70_reset_and_hazards R345: from between two instructions, the
canonical bytes of any well-formed instructions, `end` and `start` are taken one step each; then the machine runs, with
exactly those instructions appended to `P` and each label naming its last `Mark`. -/
def Obligations.SourceBytesBecomeTheProgram : Prop :=
  ∀ (s : State) (is : List Instr) (bytes : List Byte) (rest : List HostEvent),
    s.phase = .decode → s.D.restart = s.D → s.D.cr = false → (∀ i ∈ is, i.wf s.cfg) →
    (∀ k ∈ s.cfg.progCap, s.P.length + is.length ≤ k) → (∀ k ∈ s.cfg.labelCap, s.LT.length + is.length ≤ k) →
    bytes = is.flatMap encode → s.inbox = bytes.map .byte ++ .eof :: .start :: rest →
    ∃ LT', Host.Core.run Sys2Proof.core (bytes.length + 2) s =
        .next { s with
          inbox := rest
          D := { s.D with offset := s.D.offset + bytes.length }
          P := s.P ++ is
          LT := LT'
          phase := .run } ∧
      ∀ l, IntMap.get? LT' l = (lastMarkFrom s.P.length is l).or (IntMap.get? s.LT l)

/-- 30_encoding R91 (under `CRLF_POLICY = independent`; see log entry 8 for `merge`): decoding a stream is decoding it
with every ignored byte deleted, byte offsets apart. -/
def Obligations.IgnoredBytesDoNotMatter : Prop :=
  ∀ (c : Config) (f : Front) (bs : List Byte), c.crlf = .independent →
    forgetOffset (Front.stream c f bs) =
      forgetOffset (Front.stream c f (bs.filter fun b => (tokenizeByte b).isSome))

/-- 30_encoding R100, R110: one word of each row of the opcode map, written out by hand. -/
def Obligations.WrittenOutWordsDecode : Prop :=
  ∀ w ∈ ([
      ([0x20, 0x20, 0x09, 0x09, 0x20, 0x09, 0x0A], .push (-5)),
      ([0x20, 0x0A, 0x20], .duplicate),
      ([0x20, 0x09, 0x20, 0x20, 0x09, 0x20, 0x0A], .copy 2),
      ([0x20, 0x0A, 0x09], .swap),
      ([0x20, 0x0A, 0x0A], .discard),
      ([0x20, 0x09, 0x0A, 0x20, 0x09, 0x09, 0x0A], .slide 3),
      ([0x09, 0x20, 0x20, 0x20], .add),
      ([0x09, 0x20, 0x20, 0x09], .sub),
      ([0x09, 0x20, 0x20, 0x0A], .mul),
      ([0x09, 0x20, 0x09, 0x20], .div),
      ([0x09, 0x20, 0x09, 0x09], .mod),
      ([0x09, 0x09, 0x20], .store),
      ([0x09, 0x09, 0x09], .retrieve),
      ([0x0A, 0x20, 0x20, 0x09, 0x09, 0x0A], .mark (-1)),
      ([0x0A, 0x20, 0x09, 0x20, 0x09, 0x0A], .call 1),
      ([0x0A, 0x20, 0x0A, 0x20, 0x0A], .jump 0),
      ([0x0A, 0x09, 0x20, 0x20, 0x09, 0x20, 0x20, 0x09, 0x0A], .jumpIfZero 9),
      ([0x0A, 0x09, 0x09, 0x09, 0x09, 0x0A], .jumpIfNegative (-1)),
      ([0x0A, 0x09, 0x0A], .ret),
      ([0x0A, 0x0A, 0x0A], .endProg),
      ([0x09, 0x0A, 0x20, 0x20], .outChar),
      ([0x09, 0x0A, 0x20, 0x09], .outNum),
      ([0x09, 0x0A, 0x09, 0x20], .inChar),
      ([0x09, 0x0A, 0x09, 0x09], .inNum)] : List (List Byte × Instr)),
    decodeInstr Config.standard Decoder.reset w.1 = .instr w.2 []

/-! ### The step, the start and the reset -/

/-- 32_vm_cycle R162, R163: with no host event waiting, a step in `RUN` is `exec` of the instruction at `pc`, and
nothing is added around it; past the end the run is done. -/
def Obligations.StepRunsTheInstructionAtPc : Prop :=
  ∀ s : State, s.inbox = [] → s.phase = .run →
    (∀ i, s.P[s.pc]? = some i → step s = exec i s) ∧
    (s.P.length ≤ s.pc → step s = .next { s with phase := .done, exit := some s.cfg.exitOk })

/-- 32_vm_cycle R160. -/
def Obligations.StartOnlyFromReady : Prop :=
  ∀ (s : State) (rest : List HostEvent), s.inbox = .start :: rest →
    (s.phase = .ready → step s = .next { s with inbox := rest, phase := .run }) ∧
    (s.phase ≠ .ready → step s = .next { s with inbox := rest })

/-- 70_reset_and_hazards R331, the value of every piece of state it names, after `reset` in any phase (R330) and in the
state right after reset. -/
def Obligations.ResetLeavesTheStatedValues : Prop :=
  ∀ t : State,
    t = State.reset ∨ (∃ (s : State) (rest : List HostEvent), s.inbox = .reset :: rest ∧ step s = .next t) →
    t.pc = 0 ∧ t.S = [] ∧ t.C = [] ∧ (∀ a, IntMap.get? t.H a = none) ∧ t.P = [] ∧
    (∀ l, IntMap.get? t.LT l = none) ∧
    t.D.stage = .imp ∧ t.D.imp = none ∧ t.D.sel = none ∧ t.D.op = none ∧ t.D.neg = false ∧ t.D.mag = 0 ∧
    t.D.nbits = 0 ∧ t.D.offset = 0 ∧ t.D.cr = false ∧
    t.OUT = [] ∧ t.phase = .decode ∧ errCode t.err = 0 ∧
    t.errpos.offset = none ∧ t.errpos.icount = none ∧ t.errpos.pc = none ∧ t.exit = none

/-! ### Invariants and whole-machine rules -/

/-- The reset state meets the invariant, whatever the parameters. -/
def Obligations.ResetMeetsTheInvariant : Prop :=
  Inv State.reset ∧ ∀ c : Config, Inv (State.resetWith c)

/-- Every step, from every state that meets it, keeps the invariant: words stay words, the heap and the label table
stay canonical, a label names its last `Mark`, `pc` and the return addresses stay in range, the capacities hold, the
decoder stays in its 18 states, the status registers agree with the phase. -/
def Obligations.StepKeepsTheInvariant : Prop :=
  ∀ s t : State, Inv s → step s = .next t → Inv t

/-- The decoder's part and the status part are each kept on their own. -/
def Obligations.StepKeepsDecoderAndStatus : Prop :=
  (∀ s t : State, DecoderInv s → step s = .next t → DecoderInv t) ∧
  (∀ s t : State, statusInv s → step s = .next t → statusInv t)

/-- 20_memory R74: once decoding is over, no step but a reset writes `P` or `LT`; and no step ever changes the
parameters (10_state R45). -/
def Obligations.ProgramIsImmutableOnceDecoded : Prop :=
  ∀ s t : State, step s = .next t →
    t.cfg = s.cfg ∧
    (s.phase ≠ .decode → s.inbox.head? ≠ some .reset → t.P = s.P ∧ t.LT = s.LT)

/-- 32_vm_cycle R160: outside `RUN` no step but a reset touches the VM's state. -/
def Obligations.VmIsIdleOutsideRun : Prop :=
  ∀ s t : State, s.phase ≠ .run → s.inbox.head? ≠ some .reset → step s = .next t →
    t.pc = s.pc ∧ t.S = s.S ∧ t.C = s.C ∧ t.H = s.H ∧ t.OUT = s.OUT

/-- 20_memory R77, 10_state R36: what has been emitted stays in `OUT`, and a written address stays written, until a
reset. -/
def Obligations.OutputAndWrittenCellsStay : Prop :=
  ∀ s t : State, s.inbox.head? ≠ some .reset → step s = .next t →
    (∃ new, t.OUT = s.OUT ++ new) ∧
    ∀ a, IntMap.get? s.H a ≠ none → IntMap.get? t.H a ≠ none

/-- The frame of all instructions (10_state R32, R33, R35, R38, R39, R45, 20_memory R74): which fields each may
change. -/
def Obligations.FrameOfEveryInstruction : Prop :=
  ∀ (i : Instr) (s t : State), exec i s = .next t →
    t.cfg = s.cfg ∧ t.inbox = s.inbox ∧ t.D = s.D ∧ t.P = s.P ∧ t.LT = s.LT ∧
    (i.opcode ∉ [Opcode.call, .ret] → t.C = s.C) ∧
    (i.opcode ∉ [Opcode.outChar, .outNum] → t.OUT = s.OUT) ∧
    (i.opcode ∉ [Opcode.inChar, .inNum] → t.IN = s.IN ∧ t.freeDraws = s.freeDraws) ∧
    (i.opcode ∈ [Opcode.mark, .call, .jump, .ret, .endProg] → t.S = s.S) ∧
    ((t.phase = s.phase ∧ t.err = s.err ∧ t.errpos = s.errpos ∧ t.exit = s.exit) ∨
      (i = .endProg ∧ t = { s with phase := .done, exit := some s.cfg.exitOk }) ∨
      (∃ k, t = runError k s) ∨
      (i.opcode ∈ [Opcode.inChar, .inNum] ∧ ∃ k, t = inputError k s)) ∧
    (i.opcode ∉ [Opcode.call, .jump, .jumpIfZero, .jumpIfNegative, .ret, .endProg] →
      t.pc = s.pc + 1 ∨ (∃ k, t = runError k s) ∨
      (i.opcode ∈ [Opcode.inChar, .inNum] ∧ (t = s ∨ ∃ k, t = inputError k s)))

/-- 20_memory R65, 42_heap R222: every cell but the one an instruction writes reads as before. -/
def Obligations.HeapFrame : Prop :=
  ∀ (i : Instr) (s t : State), exec i s = .next t →
    ∀ x, writesCell i s ≠ some x → IntMap.get? t.H x = IntMap.get? s.H x

/-- 20_memory R61: the elements below those an instruction pops or rewrites stay as they are. -/
def Obligations.StackFrame : Prop :=
  ∀ (i : Instr) (s t : State), exec i s = .next t →
    ∃ top, t.S = s.S.take (s.S.length - stackRewrites i) ++ top

end
end

