-- ==== Sys2Proof/Laws/IntMap.lean ====
section
/-! SUPPORT. The laws of the partial maps that the heap and the label table are: reading after writing, the canonical
form is kept, and how the number of entries grows. -/

namespace Sys2Proof

@[simp] theorem IntMap.get?_nil {α : Type} (a : Int) : IntMap.get? ([] : IntMap α) a = none := rfl

theorem IntMap.get?_cons {α : Type} (k : Int) (v : α) (m : IntMap α) (a : Int) :
    IntMap.get? ((k, v) :: m) a = if k = a then some v else IntMap.get? m a := rfl

/-- A read after a write: the value written, at the address written, and everything else as before. -/
theorem IntMap.get?_set {α : Type} (m : IntMap α) (a : Int) (v : α) (x : Int) :
    IntMap.get? (IntMap.set m a v) x = if x = a then some v else IntMap.get? m x := by
  induction m with
  | nil => simp only [IntMap.set, IntMap.get?, eq_comm]
  | cons p m ih =>
    obtain ⟨k, w⟩ := p
    unfold IntMap.set
    split_ifs with h1 h2 h3 h4 <;> simp only [IntMap.get?, ih] <;> grind

theorem IntMap.mem_set {α : Type} {m : IntMap α} {a : Int} {v : α} {p : Int × α}
    (h : p ∈ IntMap.set m a v) : p = (a, v) ∨ p ∈ m := by
  induction m with
  | nil => simpa [IntMap.set] using h
  | cons q m ih =>
    obtain ⟨k, w⟩ := q
    unfold IntMap.set at h
    split_ifs at h <;> simp only [List.mem_cons] at h ⊢ <;> grind

/-- A write keeps the canonical form. -/
theorem IntMap.wf_set {α : Type} {m : IntMap α} (h : IntMap.wf m) (a : Int) (v : α) :
    IntMap.wf (IntMap.set m a v) := by
  induction m with
  | nil => simp [IntMap.wf, IntMap.set]
  | cons p m ih =>
    obtain ⟨k, w⟩ := p
    have hm : ∀ q ∈ m, k < q.1 := (List.pairwise_cons.mp h).1
    have ht : IntMap.wf m := (List.pairwise_cons.mp h).2
    unfold IntMap.set
    split_ifs with h1 h2
    · refine List.pairwise_cons.mpr ⟨?_, h⟩
      intro q hq
      rcases List.mem_cons.mp hq with rfl | hq
      · exact h1
      · exact lt_trans h1 (hm q hq)
    · subst h2
      exact List.pairwise_cons.mpr ⟨hm, ht⟩
    · refine List.pairwise_cons.mpr ⟨?_, ih ht⟩
      intro q hq
      rcases IntMap.mem_set hq with rfl | hq
      · show k < a
        omega
      · exact hm q hq

/-- Writing a new key adds one entry. -/
theorem IntMap.length_set_new {α : Type} {m : IntMap α} {a : Int} (h : IntMap.get? m a = none) (v : α) :
    (IntMap.set m a v).length = m.length + 1 := by
  induction m with
  | nil => rfl
  | cons p m ih =>
    obtain ⟨k, w⟩ := p
    rw [IntMap.get?_cons] at h
    unfold IntMap.set
    by_cases hk : k = a
    · simp [hk] at h
    · rw [if_neg hk] at h
      rw [if_neg (fun e : a = k => hk e.symm)]
      split_ifs
      · rfl
      · simp [ih h]

/-- A key of a canonical map stands in it once, so its value is the one listed. -/
theorem IntMap.get?_of_mem {α : Type} {m : IntMap α} (h : IntMap.wf m) {p : Int × α} (hp : p ∈ m) :
    IntMap.get? m p.1 = some p.2 := by
  induction m with
  | nil => simp at hp
  | cons q m ih =>
    obtain ⟨k, w⟩ := q
    have hm : ∀ q ∈ m, k < q.1 := (List.pairwise_cons.mp h).1
    rw [IntMap.get?_cons]
    rcases List.mem_cons.mp hp with rfl | hp
    · simp
    · rw [if_neg (ne_of_lt (hm p hp)), ih (List.pairwise_cons.mp h).2 hp]

theorem IntMap.mem_of_get? {α : Type} {m : IntMap α} {a : Int} {v : α} (h : IntMap.get? m a = some v) :
    (a, v) ∈ m := by
  induction m with
  | nil => simp at h
  | cons q m ih =>
    obtain ⟨k, w⟩ := q
    rw [IntMap.get?_cons] at h
    split_ifs at h with h1
    · simp_all
    · exact List.mem_cons_of_mem _ (ih h)

/-- Writing a key of a canonical map keeps the number of entries. -/
theorem IntMap.length_set_old {α : Type} {m : IntMap α} (hw : IntMap.wf m) {a : Int}
    (h : IntMap.get? m a ≠ none) (v : α) : (IntMap.set m a v).length = m.length := by
  induction m with
  | nil => simp at h
  | cons p m ih =>
    obtain ⟨k, w⟩ := p
    have hm : ∀ q ∈ m, k < q.1 := (List.pairwise_cons.mp hw).1
    unfold IntMap.set
    split_ifs with h1 h2
    · exfalso
      obtain ⟨u, hu⟩ := Option.ne_none_iff_exists'.mp h
      rcases List.mem_cons.mp (IntMap.mem_of_get? hu) with he | he
      · have : a = k := congrArg Prod.fst he
        omega
      · have := hm _ he
        dsimp only at this
        omega
    · rfl
    · have : IntMap.get? m a ≠ none := by
        rwa [IntMap.get?_cons, if_neg (fun e => h2 e.symm)] at h
      simp [ih (List.pairwise_cons.mp hw).2 this]

end Sys2Proof
end

