-- ==== Sys2Proof/Laws/Operands.lean ====
section
/-! SUPPORT. What each operand form, heap operation and number operation answers, once, so that no proof unfolds it
again. -/

namespace Sys2Proof

theorem halfRange_pos (W : Nat) : 0 < halfRange W := by
  have : 0 < 2 ^ (W - 1) := Nat.two_pow_pos _
  exact_mod_cast this

/-- The range of a word as bounds on one number. -/
theorem isWord_iff {W : Nat} {v : Int} : isWord W v ↔ -halfRange W ≤ v ∧ v < halfRange W := by
  rw [isWord, minWord, maxWord, Int.le_sub_one_iff]

theorem isWord_zero (W : Nat) : isWord W 0 := by
  have := halfRange_pos W
  rw [isWord_iff]
  omega

theorem atCap_eq_false {cap : Option Nat} {n : Nat} : atCap cap n = false ↔ ∀ k ∈ cap, n < k := by
  cases cap <;> simp [atCap]

theorem atCap_eq_true {cap : Option Nat} {n : Nat} : atCap cap n = true ↔ ∃ k ∈ cap, k ≤ n := by
  cases cap <;> simp [atCap]

/-! ### Digits -/

theorem digitsFuel_zero (base fuel : Nat) : digitsFuel base fuel 0 = [] := by
  cases fuel <;> simp [digitsFuel]

/-- Enough fuel is as good as more. -/
theorem digitsFuel_eq {base : Nat} (hb : 1 < base) :
    ∀ {fuel fuel' n : Nat}, n ≤ fuel → n ≤ fuel' → digitsFuel base fuel n = digitsFuel base fuel' n := by
  intro fuel
  induction fuel with
  | zero =>
    intro fuel' n h _
    obtain rfl : n = 0 := by omega
    simp [digitsFuel_zero]
  | succ f ih =>
    intro fuel' n h h'
    rcases Nat.eq_zero_or_pos n with rfl | hn
    · simp [digitsFuel_zero]
    · obtain ⟨f', rfl⟩ : ∃ f', fuel' = f' + 1 := ⟨fuel' - 1, by omega⟩
      have hd : n / base < n := Nat.div_lt_self hn hb
      simp only [digitsFuel]
      rw [ih (fuel' := f') (n := n / base) (by omega) (by omega)]

@[simp] theorem digits_zero (base : Nat) : digits base 0 = [] := digitsFuel_zero base 0

/-- The digits of a positive number are those of its quotient, then its remainder. -/
theorem digits_pos {base n : Nat} (hb : 1 < base) (hn : 0 < n) :
    digits base n = digits base (n / base) ++ [n % base] := by
  obtain ⟨m, rfl⟩ : ∃ m, n = m + 1 := ⟨n - 1, by omega⟩
  have hd : (m + 1) / base < m + 1 := Nat.div_lt_self hn hb
  unfold digits
  rw [digitsFuel, if_neg (by omega), digitsFuel_eq hb (by omega) le_rfl]

theorem digits_lt {base : Nat} (hb : 1 < base) (n : Nat) : ∀ d ∈ digits base n, d < base := by
  induction n using Nat.strong_induction_on with
  | _ n ih =>
    rcases Nat.eq_zero_or_pos n with rfl | hn
    · simp
    · rw [digits_pos hb hn]
      intro d hd
      rcases List.mem_append.mp hd with h | h
      · exact ih _ (Nat.div_lt_self hn hb) d h
      · simp at h
        exact h ▸ Nat.mod_lt _ (by omega)

/-- Reading the digits back gives the number. -/
theorem digits_value {base : Nat} (hb : 1 < base) (n : Nat) :
    (digits base n).foldl (fun m d => base * m + d) 0 = n := by
  induction n using Nat.strong_induction_on with
  | _ n ih =>
    rcases Nat.eq_zero_or_pos n with rfl | hn
    · simp
    · rw [digits_pos hb hn, List.foldl_append, ih _ (Nat.div_lt_self hn hb)]
      exact Nat.div_add_mod n base

theorem digits_ne_nil {base n : Nat} (hb : 1 < base) (hn : 0 < n) : digits base n ≠ [] := by
  rw [digits_pos hb hn]
  simp

theorem digits_head {base n : Nat} (hb : 1 < base) : (digits base n).head? ≠ some 0 := by
  induction n using Nat.strong_induction_on with
  | _ n ih =>
    rcases Nat.eq_zero_or_pos n with rfl | hn
    · simp
    · rw [digits_pos hb hn]
      rcases Nat.eq_zero_or_pos (n / base) with h | h
      · have hlt : n < base := (Nat.div_eq_zero_iff_lt (by omega)).mp h
        simp [h, Nat.mod_eq_of_lt hlt]
        omega
      · have hne := digits_ne_nil hb h
        rw [List.head?_append_of_ne_nil _ hne]
        exact ih _ (Nat.div_lt_self hn hb)

namespace Machine

/-! ### The operand stack -/

@[simp] theorem pop1_append {α : Type} (q : List α) (x : α) : pop1 (q ++ [x]) = some (q, x) := by
  simp [pop1]

theorem pop1_eq_some {α : Type} {q below : List α} {x : α} :
    pop1 q = some (below, x) ↔ q = below ++ [x] := by
  constructor
  · intro h
    rcases List.eq_nil_or_concat q with rfl | ⟨r, y, rfl⟩
    · simp [pop1] at h
    · simp_all
  · rintro rfl
    simp

theorem pop1_eq_none {α : Type} {q : List α} : pop1 q = none ↔ q.length < 1 := by
  rcases List.eq_nil_or_concat q with rfl | ⟨r, y, rfl⟩ <;> simp [pop1]

@[simp] theorem pop2_append {α : Type} (q : List α) (a b : α) : pop2 (q ++ [a, b]) = some (q, a, b) := by
  simp [pop2]

theorem pop2_eq_none {α : Type} {q : List α} : pop2 q = none ↔ q.length < 2 := by
  rcases List.eq_nil_or_concat q with rfl | ⟨r, y, rfl⟩
  · simp [pop2]
  · rcases List.eq_nil_or_concat r with rfl | ⟨r', z, rfl⟩ <;> simp [pop2]

theorem pop2_eq_some {α : Type} {q below : List α} {a b : α} :
    pop2 q = some (below, a, b) ↔ q = below ++ [a, b] := by
  constructor
  · intro h
    rcases List.eq_nil_or_concat q with rfl | ⟨r, y, rfl⟩
    · simp [pop2] at h
    · rcases List.eq_nil_or_concat r with rfl | ⟨r', z, rfl⟩
      · simp [pop2] at h
      · simp [pop2] at h
        simp [h]
  · rintro rfl
    simp

theorem atDepth_eq_none {α : Type} {q : List α} {d : Nat} : atDepth q d = none ↔ q.length < d + 1 := by
  unfold atDepth
  split_ifs with h
  · simp
    omega
  · simp
    omega

/-- The element at a depth has that many elements above it. -/
theorem atDepth_split {α : Type} (below above : List α) (v : α) :
    atDepth (below ++ v :: above) above.length = some v := by
  have h : (below ++ v :: above).length - 1 - above.length = below.length := by
    simp
  unfold atDepth
  rw [if_pos (by simp; omega), h]
  simp

theorem atDepth_eq_some {α : Type} {q : List α} {d : Nat} {v : α} (h : atDepth q d = some v) :
    ∃ below above, q = below ++ v :: above ∧ above.length = d := by
  unfold atDepth at h
  split_ifs at h with hd
  obtain ⟨hi, hv⟩ := List.getElem?_eq_some_iff.mp h
  refine ⟨q.take (q.length - 1 - d), q.drop (q.length - 1 - d + 1), ?_, ?_⟩
  · rw [← hv, ← List.drop_eq_getElem_cons hi, List.take_append_drop]
  · simp
    omega

theorem slideBy_eq_none {α : Type} {q : List α} {n : Nat} : slideBy q n = none ↔ q.length < n + 1 := by
  rcases List.eq_nil_or_concat q with rfl | ⟨r, y, rfl⟩
  · simp [slideBy, pop1]
  · simp [slideBy]

/-- Sliding removes the elements just below the top. -/
theorem slideBy_split {α : Type} (below mid : List α) (t : α) :
    slideBy (below ++ mid ++ [t]) mid.length = some (below ++ [t]) := by
  simp only [slideBy, pop1_append]
  rw [if_neg (by simp)]
  simp

theorem slideBy_eq_some {α : Type} {q r : List α} {n : Nat} (h : slideBy q n = some r) :
    ∃ below mid t, q = below ++ mid ++ [t] ∧ mid.length = n ∧ r = below ++ [t] := by
  rcases List.eq_nil_or_concat q with rfl | ⟨b, t, rfl⟩
  · simp [slideBy, pop1] at h
  · simp only [slideBy, List.concat_eq_append, pop1_append] at h
    split_ifs at h with hn
    refine ⟨b.take (b.length - n), b.drop (b.length - n), t, ?_, ?_, ?_⟩
    · simp
    · simp
      omega
    · simpa using h.symm

/-! ### The heap -/

theorem memWrite_eq_some {c : Config} {H H' : Memory} {a v : Word} :
    memWrite c H a v = some H' ↔
      ((IntMap.get? H a).isSome = true ∨ ∀ k ∈ c.heapCap, H.length < k) ∧ H' = IntMap.set H a v := by
  unfold memWrite
  rw [← atCap_eq_false]
  cases IntMap.get? H a <;> cases atCap c.heapCap H.length <;> simp [eq_comm]

theorem memWrite_eq_none {c : Config} {H : Memory} {a v : Word} :
    memWrite c H a v = none ↔ ¬ ((IntMap.get? H a).isSome = true ∨ ∀ k ∈ c.heapCap, H.length < k) := by
  unfold memWrite
  rw [← atCap_eq_false]
  cases IntMap.get? H a <;> cases atCap c.heapCap H.length <;> simp

/-- A write keeps the heap canonical. -/
theorem memWrite_wf {c : Config} {H H' : Memory} {a v : Word} (h : memWrite c H a v = some H')
    (hw : Memory.wf H) : Memory.wf H' := by
  rw [(memWrite_eq_some.mp h).2]
  exact IntMap.wf_set hw a v

/-- A write changes the cell it names and no other. -/
theorem memWrite_get? {c : Config} {H H' : Memory} {a v : Word} (h : memWrite c H a v = some H') (x : Word) :
    IntMap.get? H' x = if x = a then some v else IntMap.get? H x := by
  rw [(memWrite_eq_some.mp h).2, IntMap.get?_set]

theorem memRead_written {c : Config} {H : Memory} {a v : Word} (h : IntMap.get? H a = some v) :
    memRead c H a = some v := by
  simp [memRead, h]

theorem memRead_unwritten {c : Config} {H : Memory} {a : Word} (h : IntMap.get? H a = none) :
    memRead c H a = if c.heapDefault = .fault then none else some 0 := by
  cases hd : c.heapDefault <;> simp [memRead, h, hd]

/-! ### Input lines -/

/-- The first line ends at the first line feed. -/
theorem splitLine_append {line rest : List Nat} (h : 10 ∉ line) :
    splitLine (line ++ 10 :: rest) = some (line, rest) := by
  induction line with
  | nil => simp [splitLine]
  | cons ch cs ih =>
    simp only [List.mem_cons, not_or] at h
    simp [splitLine, ih h.2, Ne.symm h.1]

theorem splitLine_eq_none {cs : List Nat} : splitLine cs = none ↔ 10 ∉ cs := by
  induction cs with
  | nil => simp [splitLine]
  | cons ch cs ih =>
    unfold splitLine
    split_ifs with h
    · simp [h]
    · cases hs : splitLine cs <;> simp_all [eq_comm]

theorem splitLine_eq_some {cs line rest : List Nat} (h : splitLine cs = some (line, rest)) :
    cs = line ++ 10 :: rest ∧ 10 ∉ line := by
  induction cs generalizing line with
  | nil => simp [splitLine] at h
  | cons ch cs ih =>
    unfold splitLine at h
    split_ifs at h with hc
    · simp at h
      simp [h, hc]
    · cases hs : splitLine cs with
      | none => simp [hs] at h
      | some p =>
        obtain ⟨l, r⟩ := p
        simp [hs] at h
        obtain ⟨rfl, rfl⟩ := h
        obtain ⟨rfl, hl⟩ := ih hs
        simp [hl, Ne.symm hc]

/-! ### Numbers -/

/-- `wrap` gives a word. -/
theorem wrap_isWord (W : Nat) (x : Int) : isWord W (wrap W x) := by
  have hp := halfRange_pos W
  have hle : ((2 ^ W : Nat) : Int) ≤ 2 * halfRange W := by
    have : 2 ^ W ≤ 2 * 2 ^ (W - 1) := by
      cases W with
      | zero => simp
      | succ n => simp [pow_succ]; omega
    exact_mod_cast this
  have hpos : (0 : Int) < ((2 ^ W : Nat) : Int) := by exact_mod_cast Nat.two_pow_pos W
  have h0 := Int.emod_nonneg (x + halfRange W) (ne_of_gt hpos)
  have h1 := Int.emod_lt_of_pos (x + halfRange W) hpos
  rw [isWord_iff, wrap]
  omega

/-- A remainder is smaller than its divisor, so it is a word where the divisor is one. -/
theorem remainder_isWord {W : Nat} (m : DivMod) (a : Int) {b : Int} (hb : isWord W b) (h0 : b ≠ 0) :
    isWord W (remainder m a b) := by
  have hp := halfRange_pos W
  obtain ⟨hb1, hb2⟩ := isWord_iff.mp hb
  have key : -halfRange W < remainder m a b ∧ remainder m a b < halfRange W := by
    cases m with
    | truncating =>
      have h : |Int.tmod a b| < |b| := by
        rw [Int.abs_eq_natAbs, Int.abs_eq_natAbs, Int.natAbs_tmod]
        exact_mod_cast Nat.mod_lt _ (Int.natAbs_pos.mpr h0)
      have hb' : |b| ≤ halfRange W := abs_le.mpr ⟨by omega, by omega⟩
      exact abs_lt.mp (lt_of_lt_of_le h hb')
    | flooring =>
      rcases lt_or_gt_of_ne h0 with h | h
      · have h1 : b < Int.fmod a b := by
          have := Int.fmod_nonneg_of_pos (-a) (b := -b) (by omega)
          have h2 := Int.fmod_lt_of_pos (-a) (b := -b) (by omega)
          rw [Int.neg_fmod_neg] at h2
          omega
        have h2 : Int.fmod a b ≤ 0 := by
          have h2 := Int.fmod_nonneg_of_pos (-a) (b := -b) (by omega)
          rw [Int.neg_fmod_neg] at h2
          omega
        constructor <;> simp only [remainder] <;> omega
      · have h1 := Int.fmod_nonneg_of_pos a h
        have h2 := Int.fmod_lt_of_pos a h
        constructor <;> simp only [remainder] <;> omega
  rw [isWord_iff]
  omega

end Machine
end Sys2Proof
end

