-- ==== Sys2Proof/Laws/Decode.lean ====
section
/-! SUPPORT. The decoder's laws: its 18 states (31_decoder_fsm R147) are kept, what it completes is well-formed, what an
error is, what completing an instruction does to the label table, and how the canonical spelling is read. -/

namespace Sys2Proof

open Sys2Proof.Machine

/-! ### The states of R147 are kept -/

theorem restart_reachable {c : Config} {d : Decoder} (h : decoderReachable c d) : decoderReachable c d.restart :=
  ⟨h.1, rfl, .inl rfl, rfl, rfl, rfl, rfl⟩

theorem take_reachable {c : Config} {d : Decoder} (b : Byte) (h : decoderReachable c d) :
    decoderReachable c (d.take c b).1 := by
  refine ⟨fun hc => ?_, h.2⟩
  simp only [Decoder.take, tokenize, hc]
  exact h.1 hc

theorem select_more {f : Family} {sel : Option Sym} {s x : Sym} (h : selectOpcode f sel s = .more x) :
    (f, some x) ∈ opcodeStates := by
  cases f <;> rcases sel with _ | sel <;> cases s <;> (try cases sel) <;> simp [selectOpcode] at h <;> subst h <;>
    decide

theorem select_need {f : Family} {sel : Option Sym} {s : Sym} {op : Opcode} (h : selectOpcode f sel s = .need op) :
    (op.isNumber = true ∨ op.isLabel = true) ∧ f = operandFamily op := by
  cases f <;> rcases sel with _ | sel <;> cases s <;> (try cases sel) <;> simp [selectOpcode] at h <;> subst h <;>
    decide

theorem select_done {f : Family} {sel : Option Sym} {s : Sym} {op : Opcode} (h : selectOpcode f sel s = .done op)
    (v : Int) (c : Config) : (op.instr v).wf c := by
  cases f <;> rcases sel with _ | sel <;> cases s <;> (try cases sel) <;> simp [selectOpcode] at h <;> subst h <;>
    simp [Opcode.instr, Instr.wf, Instr.number?, Instr.label?]

/-- A magnitude bit keeps the decoder in the `bits` state. -/
theorem bit_reachable {c : Config} {d d' : Decoder} {op : Opcode} {b : Bool} (h : decoderReachable c d)
    (hs : d.stage = .bits) (ho : d.op = some op) (hb : d.bit c op b = .goOn d') : decoderReachable c d' := by
  obtain ⟨h1, h2⟩ := h
  rw [hs] at h2
  obtain ⟨⟨op', ho', ht, hk⟩, hmag⟩ := h2
  obtain rfl : op = op' := by rw [ho] at ho'; exact Option.some.inj ho'
  unfold Decoder.bit at hb
  dsimp only at hb
  split_ifs at hb with h3 h4
  simp only [Move.goOn.injEq] at hb
  subst hb
  refine ⟨h1, ?_⟩
  simp only [hs]
  refine ⟨⟨op, ho, ht, fun hl k hk' => ?_⟩, ?_⟩
  · have : atCap c.labelBits d.nbits = false := by simpa [hl] using h3
    exact atCap_eq_false.mp this k hk'
  · have : b.toNat ≤ 1 := Bool.toNat_le b
    rw [pow_succ]
    omega

/-- A symbol keeps the decoder in the states of R147. -/
theorem symbol_reachable {c : Config} {d d' : Decoder} {s : Sym} (h : decoderReachable c d)
    (hm : d.symbol c s = .goOn d') : decoderReachable c d' := by
  have h' := h
  obtain ⟨h1, h2⟩ := h
  unfold Decoder.symbol at hm
  cases hs : d.stage <;> simp only [hs] at hm h2
  · obtain ⟨ha, hsel, hb, hc⟩ := h2
    rcases hsel with hsel | hsel <;> cases s <;> simp [Decoder.impStage, hsel] at hm <;> subst hm <;>
      refine ⟨h1, ?_⟩ <;> first
        | exact ⟨⟨_, rfl, by simp [opcodeStates]⟩, hb, hc⟩
        | (simp only [hs]; exact ⟨ha, .inr trivial, hb, hc⟩)
  · obtain ⟨⟨f, hf, hi⟩, hb, hc⟩ := h2
    simp only [Decoder.opcodeStage, hf] at hm
    split at hm <;> simp at hm
    · subst hm
      refine ⟨h1, ?_⟩
      simp only [hs]
      exact ⟨⟨f, rfl, select_more ‹_›⟩, hb, hc⟩
    · subst hm
      obtain ⟨g1, g2⟩ := select_need ‹_›
      exact ⟨h1, ⟨_, rfl, g1, by rw [← g2], rfl⟩, hc⟩
  · obtain ⟨⟨op, ho, ht⟩, hc⟩ := h2
    cases s <;> simp [Decoder.signStage] at hm <;> subst hm <;>
      exact ⟨h1, ⟨op, ho, ht, fun _ k _ => Nat.zero_le k⟩, by simp⟩
  · obtain ⟨⟨op, ho, _⟩, _⟩ := h2
    simp only [Decoder.bitsStage, ho] at hm
    cases s
    · exact bit_reachable h' hs ho hm
    · exact bit_reachable h' hs ho hm
    · simp only [Decoder.finishOperand] at hm
      split at hm <;> simp at hm

/-- No state of R147 is stuck. -/
theorem symbol_ne_unreachable {c : Config} {d : Decoder} (h : decoderReachable c d) (s : Sym) :
    d.symbol c s ≠ .unreachable := by
  intro hm
  obtain ⟨_, h2⟩ := h
  unfold Decoder.symbol at hm
  cases hs : d.stage <;> simp only [hs] at hm h2
  · obtain ⟨_, hsel, _⟩ := h2
    rcases hsel with hsel | hsel <;> cases s <;> simp [Decoder.impStage, hsel] at hm
  · obtain ⟨⟨f, hf, _⟩, _⟩ := h2
    simp only [Decoder.opcodeStage, hf] at hm
    split at hm <;> simp at hm
  · cases s <;> simp [Decoder.signStage] at hm
  · obtain ⟨⟨op, ho, _⟩, _⟩ := h2
    simp only [Decoder.bitsStage, ho] at hm
    cases s <;> simp only [Decoder.bit, Decoder.finishOperand] at hm <;> split_ifs at hm

/-- What the decoder completes is well-formed. -/
theorem symbol_complete_wf {c : Config} {d : Decoder} {s : Sym} {i : Instr} (h : decoderReachable c d)
    (hm : d.symbol c s = .complete i) : i.wf c := by
  obtain ⟨_, h2⟩ := h
  unfold Decoder.symbol at hm
  cases hs : d.stage <;> simp only [hs] at hm h2
  · unfold Decoder.impStage at hm
    split at hm <;> simp at hm
  · obtain ⟨⟨f, hf, _⟩, _⟩ := h2
    simp only [Decoder.opcodeStage, hf] at hm
    split at hm <;> simp at hm
    subst hm
    exact select_done ‹_› _ _
  · cases s <;> simp [Decoder.signStage] at hm
  · obtain ⟨⟨op, ho, _, hk⟩, hmag⟩ := h2
    simp only [Decoder.bitsStage, ho] at hm
    cases s <;> simp only [Decoder.bit, Decoder.finishOperand] at hm <;> split_ifs at hm with hw
    simp only [Move.complete.injEq] at hm
    subst hm
    have hlab : op.isLabel = true → labelFits c.labelBits (operandValue d.neg d.mag) := by
      intro hl k hk'
      have : (operandValue d.neg d.mag).natAbs = d.mag := by
        unfold operandValue
        split <;> simp
      rw [this]
      exact lt_of_lt_of_le hmag (Nat.pow_le_pow_right (by omega) (hk hl k hk'))
    have hnum : op.isNumber = true → isWord c.W (operandValue d.neg d.mag) := by
      intro hn
      by_contra hc
      exact hw (by simp only [hn, Bool.true_and, Bool.not_eq_true', decide_eq_false_iff_not]; exact hc)
    cases op <;> simp only [Opcode.instr, Instr.wf, Instr.number?, Instr.label?] <;>
      simp [Opcode.isNumber, Opcode.isLabel] at hlab hnum ⊢ <;> assumption

/-! ### Errors -/

/-- A decode error on a byte: of a decode kind, at the byte's offset, nothing changed but the byte counted. -/
theorem byte_error {c : Config} {f f' : Front} {b : Byte} {k : ErrKind} {off : Nat}
    (h : Front.byte c f b = .error k off f') :
    off = f.D.offset ∧ isDecodeKind k ∧ f' = { f with D := (f.D.take c b).1 } := by
  unfold Front.byte at h
  dsimp only at h
  split at h
  · simp at h
  · split at h
    · simp at h
    · unfold Front.complete at h
      split at h
      · rename_i k' hk
        simp only [FrontResult.error.injEq] at h
        obtain ⟨rfl, rfl, rfl⟩ := h
        refine ⟨rfl, ?_, rfl⟩
        unfold Front.capacityError at hk
        repeat' split at hk
        all_goals first
          | (simp at hk; done)
          | (simp only [Option.some.injEq] at hk; subst hk; decide)
      · simp at h
    · rename_i hs
      simp only [FrontResult.error.injEq] at h
      obtain ⟨rfl, rfl, rfl⟩ := h
      refine ⟨rfl, ?_, rfl⟩
      unfold Decoder.symbol Decoder.impStage Decoder.opcodeStage Decoder.signStage Decoder.bitsStage Decoder.bit
        Decoder.finishOperand at hs
      repeat' split at hs
      all_goals (try dsimp only at hs)
      all_goals (try split at hs)
      all_goals first
        | (simp at hs; done)
        | (simp only [Move.error.injEq] at hs; subst hs; decide)
    · simp at h

/-! ### The label table -/

theorem lastMarkFrom_append (k : Nat) (P : List Instr) (i : Instr) (l : Int) :
    lastMarkFrom k (P ++ [i]) l = if i = .mark l then some (k + P.length) else lastMarkFrom k P l := by
  induction P generalizing k with
  | nil => simp [lastMarkFrom]
  | cons j P ih =>
    simp only [List.cons_append, lastMarkFrom, ih, List.length_cons]
    split_ifs <;> simp <;> omega

theorem lastMarkFrom_lt {k : Nat} {P : List Instr} {l : Int} {j : Nat} (h : lastMarkFrom k P l = some j) :
    j < k + P.length := by
  induction P generalizing k j with
  | nil => simp [lastMarkFrom] at h
  | cons i P ih =>
    simp only [lastMarkFrom] at h
    split at h
    · have := ih ‹_›
      simp at h ⊢
      omega
    · split_ifs at h
      simp at h ⊢
      omega

/-- Appending an instruction registers a mark and changes no other label. -/
theorem append_get? (f : Front) (i : Instr) (l : Int) :
    IntMap.get? (f.append i).LT l = if i = .mark l then some f.P.length else IntMap.get? f.LT l := by
  cases i <;> simp [Front.append, Instr.markLabel?]
  rw [IntMap.get?_set]
  simp only [eq_comm]

/-- Appending an instruction adds at most one label. -/
theorem append_LT_length (f : Front) (i : Instr) : (f.append i).LT.length ≤ f.LT.length + 1 := by
  have hset : ∀ (m : LabelTable) (a : Int) (v : Nat), (IntMap.set m a v).length ≤ m.length + 1 := by
    intro m a v
    induction m with
    | nil => simp [IntMap.set]
    | cons p m ih =>
      unfold IntMap.set
      split_ifs <;> simp
      omega
  unfold Front.append
  dsimp only
  split
  · omega
  · exact hset _ _ _

/-- The capacities hold for an instruction where there is room for one more of each. -/
theorem capacityError_none {c : Config} {f : Front} {i : Instr} (hp : hasRoom c.progCap f.P.length)
    (hl : hasRoom c.labelCap f.LT.length) : f.capacityError c i = none := by
  unfold Front.capacityError
  rw [atCap_eq_false.mpr hp, atCap_eq_false.mpr hl]
  cases i.markLabel? <;> simp

/-! ### Reading the canonical spelling -/

/-- With no carriage return before it, a canonical byte gives its symbol under both policies. -/
theorem take_symByte {c : Config} {d : Decoder} (h : d.cr = false) (s : Sym) :
    d.take c s.byte = ({ d with offset := d.offset + 1 }, some s) := by
  cases d
  simp only at h
  subst h
  cases hc : c.crlf <;> cases s <;> simp [Decoder.take, tokenize, tokenizeByte, Sym.byte, hc]

theorem decodeInstr_symByte {c : Config} {d : Decoder} (h : d.cr = false) (s : Sym) (bs : List Byte) :
    decodeInstr c d (s.byte :: bs) =
      match ({ d with offset := d.offset + 1 } : Decoder).symbol c s with
      | .goOn d' => decodeInstr c d' bs
      | .complete i => .instr i bs
      | .error k => .error k d.offset
      | .unreachable => .unreachable := by
  rw [decodeInstr, take_symByte h] <;> rfl

/-- A number below `2^k` has at most `k` digits in base 2. -/
theorem digits_two_length {k n : Nat} (h : n < 2 ^ k) : (digits 2 n).length ≤ k := by
  induction k generalizing n with
  | zero =>
    obtain rfl : n = 0 := by simpa using h
    simp
  | succ k ih =>
    rcases Nat.eq_zero_or_pos n with rfl | hn
    · simp
    · rw [digits_pos (by omega) hn]
      have : n / 2 < 2 ^ k := by
        rw [pow_succ] at h
        omega
      have := ih this
      simp
      omega

/-- The accumulator never exceeds the value it ends with. -/
theorem foldl_bits_le (ds : List Nat) (m : Nat) : m ≤ ds.foldl (fun n d => 2 * n + d) m := by
  induction ds generalizing m with
  | nil => exact le_rfl
  | cons d ds ih => exact le_trans (by omega) (ih (2 * m + d))

/-- The bits of an operand are accumulated, most significant first (30_encoding R96), where no limit is met. -/
theorem decodeInstr_bits {c : Config} {op : Opcode} (ds : List Nat) (rest : List Byte) :
    ∀ d : Decoder, d.cr = false → d.stage = .bits → d.op = some op → (∀ x ∈ ds, x < 2) →
      (op.isLabel = true → ∀ k ∈ c.labelBits, d.nbits + ds.length ≤ k) →
      (op.isNumber = true → ((ds.foldl (fun n x => 2 * n + x) d.mag : Nat) : Int) ≤ halfRange c.W) →
      decodeInstr c d (ds.map (fun x => (if x = 0 then Sym.S else Sym.T).byte) ++ rest) =
        decodeInstr c
          { d with
            mag := ds.foldl (fun n x => 2 * n + x) d.mag
            nbits := d.nbits + ds.length
            offset := d.offset + ds.length } rest := by
  induction ds with
  | nil => intros; rfl
  | cons x ds ih =>
    intro d hcr hs ho hx hl hn
    have hx2 : x < 2 := hx x (by simp)
    have hstep : ({ d with offset := d.offset + 1 } : Decoder).symbol c (if x = 0 then Sym.S else Sym.T) =
        .goOn { d with offset := d.offset + 1, mag := 2 * d.mag + x, nbits := d.nbits + 1 } := by
      have hbit : ∀ b : Bool, b.toNat = x →
          ({ d with offset := d.offset + 1 } : Decoder).bit c op b =
            .goOn { d with offset := d.offset + 1, mag := 2 * d.mag + x, nbits := d.nbits + 1 } := by
        intro b hb
        unfold Decoder.bit
        dsimp only
        rw [hb, if_neg, if_neg]
        · simp only [Bool.and_eq_true, decide_eq_true_eq, not_and, not_lt]
          intro h1 _
          have := hn h1
          have hle := foldl_bits_le ds (2 * d.mag + x)
          simp only [List.foldl_cons] at this
          omega
        · simp only [Bool.and_eq_true, not_and, Bool.not_eq_true]
          intro h1
          refine atCap_eq_false.mpr fun k hk => ?_
          have := hl h1 k hk
          simp at this
          omega
      rcases Nat.lt_succ_iff_lt_or_eq.mp hx2 with hx0 | hx1
      · obtain rfl : x = 0 := by omega
        simpa [Decoder.symbol, hs, Decoder.bitsStage, ho] using hbit false rfl
      · subst hx1
        simpa [Decoder.symbol, hs, Decoder.bitsStage, ho] using hbit true rfl
    rw [List.map_cons, List.cons_append, decodeInstr_symByte hcr, hstep]
    dsimp only
    refine (ih { d with offset := d.offset + 1, mag := 2 * d.mag + x, nbits := d.nbits + 1 } hcr hs ho
      (fun y hy => hx y (by simp [hy])) (fun h1 k hk => ?_) hn).trans ?_
    · have := hl h1 k hk
      simp at this ⊢
      omega
    · simp only [List.foldl_cons, List.length_cons, Nat.add_assoc, Nat.add_comm 1]

end Sys2Proof
end

