-- ==== Sys2Proof/Laws/State.lean ====
section
/-! SUPPORT. One lemma per field per state operation, each true by unfolding once, so that no later proof unfolds a
record update; and what a reset leaves. -/

namespace Sys2Proof.Machine

@[simp] theorem advance_cfg (s : State) : (advance s).cfg = s.cfg := rfl
@[simp] theorem advance_inbox (s : State) : (advance s).inbox = s.inbox := rfl
@[simp] theorem advance_D (s : State) : (advance s).D = s.D := rfl
@[simp] theorem advance_P (s : State) : (advance s).P = s.P := rfl
@[simp] theorem advance_LT (s : State) : (advance s).LT = s.LT := rfl
@[simp] theorem advance_pc (s : State) : (advance s).pc = s.pc + 1 := rfl
@[simp] theorem advance_S (s : State) : (advance s).S = s.S := rfl
@[simp] theorem advance_C (s : State) : (advance s).C = s.C := rfl
@[simp] theorem advance_H (s : State) : (advance s).H = s.H := rfl
@[simp] theorem advance_IN (s : State) : (advance s).IN = s.IN := rfl
@[simp] theorem advance_OUT (s : State) : (advance s).OUT = s.OUT := rfl
@[simp] theorem advance_phase (s : State) : (advance s).phase = s.phase := rfl
@[simp] theorem advance_err (s : State) : (advance s).err = s.err := rfl
@[simp] theorem advance_errpos (s : State) : (advance s).errpos = s.errpos := rfl
@[simp] theorem advance_exit (s : State) : (advance s).exit = s.exit := rfl
@[simp] theorem advance_freeDraws (s : State) : (advance s).freeDraws = s.freeDraws := rfl

@[simp] theorem finish_cfg (s : State) : (finish s).cfg = s.cfg := rfl
@[simp] theorem finish_inbox (s : State) : (finish s).inbox = s.inbox := rfl
@[simp] theorem finish_D (s : State) : (finish s).D = s.D := rfl
@[simp] theorem finish_P (s : State) : (finish s).P = s.P := rfl
@[simp] theorem finish_LT (s : State) : (finish s).LT = s.LT := rfl
@[simp] theorem finish_pc (s : State) : (finish s).pc = s.pc := rfl
@[simp] theorem finish_S (s : State) : (finish s).S = s.S := rfl
@[simp] theorem finish_C (s : State) : (finish s).C = s.C := rfl
@[simp] theorem finish_H (s : State) : (finish s).H = s.H := rfl
@[simp] theorem finish_IN (s : State) : (finish s).IN = s.IN := rfl
@[simp] theorem finish_OUT (s : State) : (finish s).OUT = s.OUT := rfl
@[simp] theorem finish_phase (s : State) : (finish s).phase = .done := rfl
@[simp] theorem finish_err (s : State) : (finish s).err = s.err := rfl
@[simp] theorem finish_errpos (s : State) : (finish s).errpos = s.errpos := rfl
@[simp] theorem finish_exit (s : State) : (finish s).exit = some s.cfg.exitOk := rfl
@[simp] theorem finish_freeDraws (s : State) : (finish s).freeDraws = s.freeDraws := rfl

@[simp] theorem runError_cfg (k : ErrKind) (s : State) : (runError k s).cfg = s.cfg := rfl
@[simp] theorem runError_inbox (k : ErrKind) (s : State) : (runError k s).inbox = s.inbox := rfl
@[simp] theorem runError_D (k : ErrKind) (s : State) : (runError k s).D = s.D := rfl
@[simp] theorem runError_P (k : ErrKind) (s : State) : (runError k s).P = s.P := rfl
@[simp] theorem runError_LT (k : ErrKind) (s : State) : (runError k s).LT = s.LT := rfl
@[simp] theorem runError_pc (k : ErrKind) (s : State) : (runError k s).pc = s.pc := rfl
@[simp] theorem runError_S (k : ErrKind) (s : State) : (runError k s).S = s.S := rfl
@[simp] theorem runError_C (k : ErrKind) (s : State) : (runError k s).C = s.C := rfl
@[simp] theorem runError_H (k : ErrKind) (s : State) : (runError k s).H = s.H := rfl
@[simp] theorem runError_IN (k : ErrKind) (s : State) : (runError k s).IN = s.IN := rfl
@[simp] theorem runError_OUT (k : ErrKind) (s : State) : (runError k s).OUT = s.OUT := rfl
@[simp] theorem runError_phase (k : ErrKind) (s : State) : (runError k s).phase = .runErr := rfl
@[simp] theorem runError_err (k : ErrKind) (s : State) : (runError k s).err = k := rfl
@[simp] theorem runError_errpos (k : ErrKind) (s : State) : (runError k s).errpos = { s.errpos with pc := some s.pc } := rfl
@[simp] theorem runError_exit (k : ErrKind) (s : State) : (runError k s).exit = some s.cfg.exitFail := rfl
@[simp] theorem runError_freeDraws (k : ErrKind) (s : State) : (runError k s).freeDraws = s.freeDraws := rfl

@[simp] theorem inputError_cfg (k : ErrKind) (s : State) : (inputError k s).cfg = s.cfg := rfl
@[simp] theorem inputError_inbox (k : ErrKind) (s : State) : (inputError k s).inbox = s.inbox := rfl
@[simp] theorem inputError_D (k : ErrKind) (s : State) : (inputError k s).D = s.D := rfl
@[simp] theorem inputError_P (k : ErrKind) (s : State) : (inputError k s).P = s.P := rfl
@[simp] theorem inputError_LT (k : ErrKind) (s : State) : (inputError k s).LT = s.LT := rfl
@[simp] theorem inputError_pc (k : ErrKind) (s : State) : (inputError k s).pc = s.pc := rfl
@[simp] theorem inputError_S (k : ErrKind) (s : State) : (inputError k s).S = s.S := rfl
@[simp] theorem inputError_C (k : ErrKind) (s : State) : (inputError k s).C = s.C := rfl
@[simp] theorem inputError_H (k : ErrKind) (s : State) : (inputError k s).H = s.H := rfl
@[simp] theorem inputError_IN (k : ErrKind) (s : State) : (inputError k s).IN = Config.freeInput s.freeDraws := rfl
@[simp] theorem inputError_OUT (k : ErrKind) (s : State) : (inputError k s).OUT = s.OUT := rfl
@[simp] theorem inputError_phase (k : ErrKind) (s : State) : (inputError k s).phase = .runErr := rfl
@[simp] theorem inputError_err (k : ErrKind) (s : State) : (inputError k s).err = k := rfl
@[simp] theorem inputError_errpos (k : ErrKind) (s : State) : (inputError k s).errpos = { s.errpos with pc := some s.pc } := rfl
@[simp] theorem inputError_exit (k : ErrKind) (s : State) : (inputError k s).exit = some s.cfg.exitFail := rfl
@[simp] theorem inputError_freeDraws (k : ErrKind) (s : State) : (inputError k s).freeDraws = s.freeDraws + 1 := rfl

@[simp] theorem decodeError_cfg (k : ErrKind) (off : Nat) (s : State) : (decodeError k off s).cfg = s.cfg := rfl
@[simp] theorem decodeError_inbox (k : ErrKind) (off : Nat) (s : State) : (decodeError k off s).inbox = s.inbox := rfl
@[simp] theorem decodeError_D (k : ErrKind) (off : Nat) (s : State) : (decodeError k off s).D = s.D := rfl
@[simp] theorem decodeError_P (k : ErrKind) (off : Nat) (s : State) : (decodeError k off s).P = s.P := rfl
@[simp] theorem decodeError_LT (k : ErrKind) (off : Nat) (s : State) : (decodeError k off s).LT = s.LT := rfl
@[simp] theorem decodeError_pc (k : ErrKind) (off : Nat) (s : State) : (decodeError k off s).pc = s.pc := rfl
@[simp] theorem decodeError_S (k : ErrKind) (off : Nat) (s : State) : (decodeError k off s).S = s.S := rfl
@[simp] theorem decodeError_C (k : ErrKind) (off : Nat) (s : State) : (decodeError k off s).C = s.C := rfl
@[simp] theorem decodeError_H (k : ErrKind) (off : Nat) (s : State) : (decodeError k off s).H = s.H := rfl
@[simp] theorem decodeError_IN (k : ErrKind) (off : Nat) (s : State) : (decodeError k off s).IN = s.IN := rfl
@[simp] theorem decodeError_OUT (k : ErrKind) (off : Nat) (s : State) : (decodeError k off s).OUT = s.OUT := rfl
@[simp] theorem decodeError_phase (k : ErrKind) (off : Nat) (s : State) : (decodeError k off s).phase = .decodeErr := rfl
@[simp] theorem decodeError_err (k : ErrKind) (off : Nat) (s : State) : (decodeError k off s).err = k := rfl
@[simp] theorem decodeError_errpos (k : ErrKind) (off : Nat) (s : State) : (decodeError k off s).errpos = { s.errpos with offset := some off, icount := some s.P.length } := rfl
@[simp] theorem decodeError_exit (k : ErrKind) (off : Nat) (s : State) : (decodeError k off s).exit = some s.cfg.exitFail := rfl
@[simp] theorem decodeError_freeDraws (k : ErrKind) (off : Nat) (s : State) : (decodeError k off s).freeDraws = s.freeDraws := rfl

@[simp] theorem emit_cfg (cs : List Int) (s : State) : (emit cs s).cfg = s.cfg := rfl
@[simp] theorem emit_inbox (cs : List Int) (s : State) : (emit cs s).inbox = s.inbox := rfl
@[simp] theorem emit_D (cs : List Int) (s : State) : (emit cs s).D = s.D := rfl
@[simp] theorem emit_P (cs : List Int) (s : State) : (emit cs s).P = s.P := rfl
@[simp] theorem emit_LT (cs : List Int) (s : State) : (emit cs s).LT = s.LT := rfl
@[simp] theorem emit_pc (cs : List Int) (s : State) : (emit cs s).pc = s.pc := rfl
@[simp] theorem emit_S (cs : List Int) (s : State) : (emit cs s).S = s.S := rfl
@[simp] theorem emit_C (cs : List Int) (s : State) : (emit cs s).C = s.C := rfl
@[simp] theorem emit_H (cs : List Int) (s : State) : (emit cs s).H = s.H := rfl
@[simp] theorem emit_IN (cs : List Int) (s : State) : (emit cs s).IN = s.IN := rfl
@[simp] theorem emit_OUT (cs : List Int) (s : State) : (emit cs s).OUT = s.OUT ++ cs := rfl
@[simp] theorem emit_phase (cs : List Int) (s : State) : (emit cs s).phase = s.phase := rfl
@[simp] theorem emit_err (cs : List Int) (s : State) : (emit cs s).err = s.err := rfl
@[simp] theorem emit_errpos (cs : List Int) (s : State) : (emit cs s).errpos = s.errpos := rfl
@[simp] theorem emit_exit (cs : List Int) (s : State) : (emit cs s).exit = s.exit := rfl
@[simp] theorem emit_freeDraws (cs : List Int) (s : State) : (emit cs s).freeDraws = s.freeDraws := rfl

@[simp] theorem withFront_cfg (s : State) (f : Front) : (s.withFront f).cfg = s.cfg := rfl
@[simp] theorem withFront_inbox (s : State) (f : Front) : (s.withFront f).inbox = s.inbox := rfl
@[simp] theorem withFront_D (s : State) (f : Front) : (s.withFront f).D = f.D := rfl
@[simp] theorem withFront_P (s : State) (f : Front) : (s.withFront f).P = f.P := rfl
@[simp] theorem withFront_LT (s : State) (f : Front) : (s.withFront f).LT = f.LT := rfl
@[simp] theorem withFront_pc (s : State) (f : Front) : (s.withFront f).pc = s.pc := rfl
@[simp] theorem withFront_S (s : State) (f : Front) : (s.withFront f).S = s.S := rfl
@[simp] theorem withFront_C (s : State) (f : Front) : (s.withFront f).C = s.C := rfl
@[simp] theorem withFront_H (s : State) (f : Front) : (s.withFront f).H = s.H := rfl
@[simp] theorem withFront_IN (s : State) (f : Front) : (s.withFront f).IN = s.IN := rfl
@[simp] theorem withFront_OUT (s : State) (f : Front) : (s.withFront f).OUT = s.OUT := rfl
@[simp] theorem withFront_phase (s : State) (f : Front) : (s.withFront f).phase = s.phase := rfl
@[simp] theorem withFront_err (s : State) (f : Front) : (s.withFront f).err = s.err := rfl
@[simp] theorem withFront_errpos (s : State) (f : Front) : (s.withFront f).errpos = s.errpos := rfl
@[simp] theorem withFront_exit (s : State) (f : Front) : (s.withFront f).exit = s.exit := rfl
@[simp] theorem withFront_freeDraws (s : State) (f : Front) : (s.withFront f).freeDraws = s.freeDraws := rfl
@[simp] theorem front_D (s : State) : s.front.D = s.D := rfl
@[simp] theorem front_P (s : State) : s.front.P = s.P := rfl
@[simp] theorem front_LT (s : State) : s.front.LT = s.LT := rfl

@[simp] theorem resetWith_cfg (c : Config) : (State.resetWith c).cfg = c := rfl
@[simp] theorem resetWith_inbox (c : Config) : (State.resetWith c).inbox = [] := rfl
@[simp] theorem resetWith_D (c : Config) : (State.resetWith c).D = Decoder.reset := rfl
@[simp] theorem resetWith_P (c : Config) : (State.resetWith c).P = [] := rfl
@[simp] theorem resetWith_LT (c : Config) : (State.resetWith c).LT = [] := rfl
@[simp] theorem resetWith_pc (c : Config) : (State.resetWith c).pc = 0 := rfl
@[simp] theorem resetWith_S (c : Config) : (State.resetWith c).S = [] := rfl
@[simp] theorem resetWith_C (c : Config) : (State.resetWith c).C = [] := rfl
@[simp] theorem resetWith_H (c : Config) : (State.resetWith c).H = [] := rfl
@[simp] theorem resetWith_IN (c : Config) : (State.resetWith c).IN = { chars := [], ended := false } := rfl
@[simp] theorem resetWith_OUT (c : Config) : (State.resetWith c).OUT = [] := rfl
@[simp] theorem resetWith_phase (c : Config) : (State.resetWith c).phase = .decode := rfl
@[simp] theorem resetWith_err (c : Config) : (State.resetWith c).err = .noError := rfl
@[simp] theorem resetWith_errpos (c : Config) : (State.resetWith c).errpos = ErrPos.none := rfl
@[simp] theorem resetWith_exit (c : Config) : (State.resetWith c).exit = none := rfl
@[simp] theorem resetWith_freeDraws (c : Config) : (State.resetWith c).freeDraws = 0 := rfl

/-- The heap of the reset state is in the canonical form. -/
theorem reset_heap_wf : Memory.wf State.reset.H := by simp [State.reset, Memory.wf, IntMap.wf]

end Sys2Proof.Machine
end

