-- ==== Sys2Proof/Laws/Exec.lean ====
section
/-! SUPPORT. What each operation the instructions share can do when it answers a next state, what one instruction can do
to the status registers, and what one step can change; a proof cites these and unfolds none of them again. -/

namespace Sys2Proof.Machine

/-- A push: the word on top, or the overflow. -/
theorem pushWord_next {v : Word} {s t : State} (h : pushWord v s = .next t) :
    (hasRoom s.cfg.stackCap s.S.length ∧ t = advance { s with S := s.S ++ [v] }) ∨
      (¬ hasRoom s.cfg.stackCap s.S.length ∧ t = runError .stackOverflow s) := by
  unfold pushWord at h
  split at h
  · rename_i hc
    refine .inr ⟨fun hr => ?_, (by simpa [raise] using h.symm)⟩
    rw [atCap_eq_false.mpr hr] at hc
    cases hc
  · rename_i hc
    exact .inl ⟨atCap_eq_false.mp (Bool.eq_false_iff.mpr hc), by simpa using h.symm⟩

/-- A binary operation: the top two elements replaced, or the underflow. -/
theorem binary_next {f : Int → Int → Word} {s t : State} (h : binary f s = .next t) :
    (∃ below a b, s.S = below ++ [a, b] ∧ t = advance { s with S := below ++ [f a b] }) ∨
      (s.S.length < 2 ∧ t = runError .stackUnderflow s) := by
  unfold binary at h
  split at h
  · exact .inr ⟨pop2_eq_none.mp ‹_›, by simpa [raise] using h.symm⟩
  · exact .inl ⟨_, _, _, pop2_eq_some.mp ‹_›, by simpa using h.symm⟩

/-- A division: as `binary`, or the zero divisor. -/
theorem dividing_next {f : Int → Int → Word} {s t : State} (h : dividing f s = .next t) :
    (∃ below a b, s.S = below ++ [a, b] ∧ b ≠ 0 ∧ t = advance { s with S := below ++ [f a b] }) ∨
      (∃ below a, s.S = below ++ [a, 0] ∧ t = runError .divisionByZero s) ∨
      (s.S.length < 2 ∧ t = runError .stackUnderflow s) := by
  unfold dividing at h
  split at h
  · exact .inr (.inr ⟨pop2_eq_none.mp ‹_›, by simpa [raise] using h.symm⟩)
  · rename_i hp
    have hp := pop2_eq_some.mp hp
    split at h
    · rename_i hb
      exact .inr (.inl ⟨_, _, by rw [hp, hb], by simpa [raise] using h.symm⟩)
    · exact .inl ⟨_, _, _, hp, ‹_›, by simpa using h.symm⟩

/-- A conditional jump: taken to the label, not taken, the label unresolved, or the underflow. -/
theorem jumpIf_next {test : Int → Bool} {l : Int} {s t : State} (h : jumpIf test l s = .next t) :
    (∃ below x j, s.S = below ++ [x] ∧ test x = true ∧ IntMap.get? s.LT l = some j ∧
        t = { s with S := below, pc := j }) ∨
      (∃ below x, s.S = below ++ [x] ∧ test x = false ∧ t = advance { s with S := below }) ∨
      (∃ below x, s.S = below ++ [x] ∧ IntMap.get? s.LT l = none ∧
        (test x = true ∨ s.cfg.labelResolve = .onExecute) ∧ t = runError .unresolvedLabel s) ∨
      (s.S = [] ∧ t = runError .stackUnderflow s) := by
  unfold jumpIf at h
  split at h
  · rename_i hp
    exact .inr (.inr (.inr ⟨List.length_eq_zero_iff.mp (Nat.lt_one_iff.mp (pop1_eq_none.mp hp)),
      by simpa [raise] using h.symm⟩))
  · rename_i hp
    have hp := pop1_eq_some.mp hp
    split at h
    · exact .inl ⟨_, _, _, hp, ‹_›, ‹_›, by simpa using h.symm⟩
    · exact .inr (.inr (.inl ⟨_, _, hp, ‹_›, .inl ‹_›, by simpa [raise] using h.symm⟩))
    · exact .inr (.inr (.inl ⟨_, _, hp, ‹_›, .inr ‹_›, by simpa [raise] using h.symm⟩))
    · exact .inr (.inl ⟨_, _, hp, ‹_›, by simpa using h.symm⟩)
    · exact .inr (.inl ⟨_, _, hp, ‹_›, by simpa using h.symm⟩)

/-- An output: the top popped and its text emitted, or the underflow. -/
theorem output_next {text : Int → List Int} {s t : State} (h : output text s = .next t) :
    (∃ below v, s.S = below ++ [v] ∧ t = advance (emit (text v) { s with S := below })) ∨
      (s.S = [] ∧ t = runError .stackUnderflow s) := by
  unfold output at h
  split at h
  · rename_i hp
    exact .inr ⟨List.length_eq_zero_iff.mp (Nat.lt_one_iff.mp (pop1_eq_none.mp hp)), by simpa [raise] using h.symm⟩
  · exact .inl ⟨_, _, pop1_eq_some.mp ‹_›, by simpa using h.symm⟩

/-- The store of an input instruction: the cell written, the heap full, or the underflow. -/
theorem storeInput_next {v : Word} {rest : List Nat} {s t : State} (h : storeInput v rest s = .next t) :
    (∃ below a H', s.S = below ++ [a] ∧ memWrite s.cfg s.H a v = some H' ∧
        t = advance { s with S := below, H := H', IN := { s.IN with chars := rest } }) ∨
      (∃ below a, s.S = below ++ [a] ∧ ¬ heapRoom s a ∧ t = inputError .heapCapacity s) ∨
      (s.S = [] ∧ t = inputError .stackUnderflow s) := by
  unfold storeInput at h
  split at h
  · rename_i hp
    exact .inr (.inr ⟨List.length_eq_zero_iff.mp (Nat.lt_one_iff.mp (pop1_eq_none.mp hp)),
      by simpa [raiseInput] using h.symm⟩)
  · rename_i hp
    have hp := pop1_eq_some.mp hp
    split at h
    · exact .inr (.inl ⟨_, _, hp, memWrite_eq_none.mp ‹_›, by simpa [raiseInput] using h.symm⟩)
    · exact .inl ⟨_, _, _, hp, ‹_›, by simpa using h.symm⟩

/-- A decode step's outcome in the state: the new decoder, or the entry on its error. -/
theorem takeFront_next {s t : State} {r : FrontResult} {g : State → State} (h : takeFront s r g = .next t) :
    (∃ f, r = .ok f ∧ t = g (s.withFront f)) ∨
      (∃ k off f, r = .error k off f ∧ t = decodeError k off (s.withFront f)) := by
  unfold takeFront at h
  split at h
  · exact .inl ⟨_, rfl, by simpa using h.symm⟩
  · exact .inr ⟨_, _, _, rfl, by simpa using h.symm⟩
  · simp at h

/-- The end of an instruction, as the status registers show it: they are unchanged, the run has ended, or an error was
entered, with `IN` and the count of free values open; the decoder, the program and the parameters are never touched. -/
theorem exec_status {i : Instr} {s t : State} (h : exec i s = .next t) :
    (t.phase = s.phase ∧ t.err = s.err ∧ t.errpos = s.errpos ∧ t.exit = s.exit ∧ t.cfg = s.cfg ∧ t.D = s.D ∧
        t.P = s.P ∧ t.LT = s.LT) ∨
      t = finish s ∨
      ∃ k, isRunKind k ∧ t = { runError k s with IN := t.IN, freeDraws := t.freeDraws } := by
  cases i <;> simp only [exec] at h
  all_goals
    simp only [execPush, execDuplicate, execCopy, execSwap, execDiscard, execSlide, execAdd, execSub, execMul, execDiv,
      execMod, execStore, execRetrieve, execMark, execCall, execJump, execJumpIfZero, execJumpIfNegative, execRet,
      execEndProg, execOutChar, execOutNum, execInChar, execInNum, binary, dividing, jumpIf, output, storeInput,
      pushWord] at h
    repeat' split at h
    all_goals
      simp only [raise, raiseInput, Host.Outcome.next.injEq] at h
      subst h
      first
        | exact .inl ⟨rfl, rfl, rfl, rfl, rfl, rfl, rfl, rfl⟩
        | exact .inr (.inl rfl)
        | exact .inr (.inr ⟨_, by decide, rfl⟩)

/-- The phases of 32_vm_cycle R165. -/
theorem Phase.isOver_iff (p : Phase) : p.isOver = true ↔ p = .done ∨ p = .decodeErr ∨ p = .runErr := by
  cases p <;> simp [Phase.isOver]

/-- A delivered character: dropped when the run is over or the stream closed, else appended. -/
theorem hostInputChar_next {ch : Nat} {s t : State} (h : hostInputChar ch s = .next t) :
    ((s.phase.isOver = true ∨ s.IN.ended = true) ∧ t = s) ∨
      (s.phase.isOver = false ∧ s.IN.ended = false ∧ (ch : Int) < halfRange s.cfg.W ∧
        t = { s with IN := { chars := s.IN.chars ++ [ch], ended := false } }) := by
  unfold hostInputChar at h
  split_ifs at h <;> simp only [Host.Outcome.next.injEq] at h <;> subst h <;> simp_all

/-- What one step does when no reset is the next host event: it runs an instruction, ends the run, steps the decoder, or
takes an event that changes no more than the phase and the runtime input. -/
theorem step_next {s t : State} (hr : s.inbox.head? ≠ some .reset) (h : step s = .next t) :
    (s.inbox = [] ∧ s.phase = .run ∧ ∃ i, s.P[s.pc]? = some i ∧ exec i s = .next t) ∨
      (s.inbox = [] ∧ s.phase = .run ∧ s.P.length ≤ s.pc ∧ t = finish s) ∨
      (s.phase = .decode ∧
        t = { s with
          inbox := s.inbox.tail, D := t.D, P := t.P, LT := t.LT, phase := t.phase, err := t.err
          errpos := t.errpos, exit := t.exit }) ∨
      ((s.inbox ≠ [] ∨ s.phase ≠ .run) ∧ t = { s with inbox := s.inbox.tail, phase := t.phase, IN := t.IN }) := by
  unfold step at h
  cases hi : s.inbox with
  | nil =>
    rw [hi] at h
    simp only at h
    split at h
    · rename_i hp
      unfold vmStep fetch at h
      split at h
      · rename_i hf
        exact .inr (.inl ⟨rfl, hp, List.getElem?_eq_none_iff.mp hf, by simpa using h.symm⟩)
      · exact .inl ⟨rfl, hp, _, ‹_›, h⟩
    · refine .inr (.inr (.inr ⟨.inr ‹_›, ?_⟩))
      simp only [Host.Outcome.next.injEq] at h
      subst h
      cases s
      simp_all
  | cons e rest =>
    rw [hi] at h hr
    cases e <;> simp only [hostEvent, hostByte, hostEof, hostStart, hostInputChar, hostInputEnd] at h
    · split at h
      · rename_i hp
        rcases takeFront_next h with ⟨f, _, rfl⟩ | ⟨k, off, f, _, rfl⟩ <;> exact .inr (.inr (.inl ⟨hp, rfl⟩))
      · simp only [Host.Outcome.next.injEq] at h
        subst h
        exact .inr (.inr (.inr ⟨.inl (by simp), rfl⟩))
    · split at h
      · rename_i hp
        rcases takeFront_next h with ⟨f, _, rfl⟩ | ⟨k, off, f, _, rfl⟩ <;> exact .inr (.inr (.inl ⟨hp, rfl⟩))
      · simp only [Host.Outcome.next.injEq] at h
        subst h
        exact .inr (.inr (.inr ⟨.inl (by simp), rfl⟩))
    · split at h <;> simp only [Host.Outcome.next.injEq] at h <;> subst h <;> exact .inr (.inr (.inr ⟨.inl (by simp), rfl⟩))
    · simp at hr
    · split_ifs at h <;> simp only [Host.Outcome.next.injEq] at h <;> subst h <;>
        exact .inr (.inr (.inr ⟨.inl (by simp), rfl⟩))
    · split_ifs at h <;> simp only [Host.Outcome.next.injEq] at h <;> subst h <;>
        exact .inr (.inr (.inr ⟨.inl (by simp), rfl⟩))

/-- Steps in a row: what the first `n` reach, the rest go on from. -/
theorem run_add (M : Host.Core) (n m : Nat) :
    ∀ s t : M.State, M.run n s = .next t → M.run (n + m) s = M.run m t := by
  induction n with
  | zero =>
    intro s t h
    rw [Nat.zero_add]
    exact congrArg _ (Host.Outcome.next.inj h)
  | succ n ih =>
    intro s t h
    rw [show n + 1 + m = (n + m) + 1 by omega]
    simp only [Host.Core.run] at h ⊢
    split at h
    · exact ih _ _ h
    · cases h
    · cases h

end Sys2Proof.Machine
end

