-- ==== Sys2Proof/Laws/PerInstr.lean ====
section
/-! SUPPORT. The family `Spelling`, instruction by instruction: an instruction is its opcode and its operand, and reading
its IMP and SEL (30_encoding R93, R100) from between two instructions leaves the decoder waiting for the operand, or
completes it where its format has none. -/

namespace Sys2Proof.Laws.Spelling

open Sys2Proof Sys2Proof.Machine

/-- The statement for one instruction. -/
def Statement (i : Instr) : Prop :=
  (∀ v, i.opcode.instr (i.operand?.getD v) = i) ∧
  ∀ (c : Config) (d : Decoder) (bs : List Byte), d.restart = d → d.cr = false →
    decodeInstr c d (i.opcode.spelling.map Sym.byte ++ bs) =
      match i.operand? with
      | none => .instr i bs
      | some _ =>
        decodeInstr c
          { d with
            stage := .sign
            imp := some (operandFamily i.opcode)
            op := some i.opcode
            offset := d.offset + i.opcode.spelling.length } bs

/-- The decoder's fields between two instructions. -/
theorem boundary_eq {d : Decoder} (hr : d.restart = d) (hcr : d.cr = false) :
    d = { stage := .imp, imp := none, sel := none, op := none, neg := false, mag := 0, nbits := 0,
          offset := d.offset, cr := false } := by
  have h := hr.symm
  unfold Decoder.restart at h
  rw [hcr] at h
  exact h

/-- Reading IMP and SEL of an opcode from between two instructions. -/
theorem reads (op : Opcode) (c : Config) (d : Decoder) (bs : List Byte) (hr : d.restart = d) (hcr : d.cr = false) :
    decodeInstr c d (op.spelling.map Sym.byte ++ bs) =
      if op.isNumber = true ∨ op.isLabel = true then
        decodeInstr c
          { d with
            stage := .sign, imp := some (operandFamily op), op := some op, offset := d.offset + op.spelling.length } bs
      else .instr (op.instr 0) bs := by
  rw [boundary_eq hr hcr]
  cases op <;>
    simp [Opcode.spelling, decodeInstr_symByte, Decoder.symbol, Decoder.impStage, Decoder.opcodeStage, selectOpcode,
      Opcode.instr, operandFamily, Opcode.isNumber, Opcode.isLabel]

theorem push (n : Int) : Statement (.push n) :=
  ⟨fun _ => rfl, fun c d bs hr hcr => (reads .push c d bs hr hcr).trans (if_pos (by decide))⟩

theorem duplicate : Statement .duplicate :=
  ⟨fun _ => rfl, fun c d bs hr hcr => (reads .duplicate c d bs hr hcr).trans (if_neg (by decide))⟩

theorem copy (n : Int) : Statement (.copy n) :=
  ⟨fun _ => rfl, fun c d bs hr hcr => (reads .copy c d bs hr hcr).trans (if_pos (by decide))⟩

theorem swap : Statement .swap :=
  ⟨fun _ => rfl, fun c d bs hr hcr => (reads .swap c d bs hr hcr).trans (if_neg (by decide))⟩

theorem discard : Statement .discard :=
  ⟨fun _ => rfl, fun c d bs hr hcr => (reads .discard c d bs hr hcr).trans (if_neg (by decide))⟩

theorem slide (n : Int) : Statement (.slide n) :=
  ⟨fun _ => rfl, fun c d bs hr hcr => (reads .slide c d bs hr hcr).trans (if_pos (by decide))⟩

theorem add : Statement .add :=
  ⟨fun _ => rfl, fun c d bs hr hcr => (reads .add c d bs hr hcr).trans (if_neg (by decide))⟩

theorem sub : Statement .sub :=
  ⟨fun _ => rfl, fun c d bs hr hcr => (reads .sub c d bs hr hcr).trans (if_neg (by decide))⟩

theorem mul : Statement .mul :=
  ⟨fun _ => rfl, fun c d bs hr hcr => (reads .mul c d bs hr hcr).trans (if_neg (by decide))⟩

theorem div : Statement .div :=
  ⟨fun _ => rfl, fun c d bs hr hcr => (reads .div c d bs hr hcr).trans (if_neg (by decide))⟩

theorem mod : Statement .mod :=
  ⟨fun _ => rfl, fun c d bs hr hcr => (reads .mod c d bs hr hcr).trans (if_neg (by decide))⟩

theorem store : Statement .store :=
  ⟨fun _ => rfl, fun c d bs hr hcr => (reads .store c d bs hr hcr).trans (if_neg (by decide))⟩

theorem retrieve : Statement .retrieve :=
  ⟨fun _ => rfl, fun c d bs hr hcr => (reads .retrieve c d bs hr hcr).trans (if_neg (by decide))⟩

theorem mark (l : Int) : Statement (.mark l) :=
  ⟨fun _ => rfl, fun c d bs hr hcr => (reads .mark c d bs hr hcr).trans (if_pos (by decide))⟩

theorem call (l : Int) : Statement (.call l) :=
  ⟨fun _ => rfl, fun c d bs hr hcr => (reads .call c d bs hr hcr).trans (if_pos (by decide))⟩

theorem jump (l : Int) : Statement (.jump l) :=
  ⟨fun _ => rfl, fun c d bs hr hcr => (reads .jump c d bs hr hcr).trans (if_pos (by decide))⟩

theorem jumpIfZero (l : Int) : Statement (.jumpIfZero l) :=
  ⟨fun _ => rfl, fun c d bs hr hcr => (reads .jumpIfZero c d bs hr hcr).trans (if_pos (by decide))⟩

theorem jumpIfNegative (l : Int) : Statement (.jumpIfNegative l) :=
  ⟨fun _ => rfl, fun c d bs hr hcr => (reads .jumpIfNegative c d bs hr hcr).trans (if_pos (by decide))⟩

theorem ret : Statement .ret :=
  ⟨fun _ => rfl, fun c d bs hr hcr => (reads .ret c d bs hr hcr).trans (if_neg (by decide))⟩

theorem endProg : Statement .endProg :=
  ⟨fun _ => rfl, fun c d bs hr hcr => (reads .endProg c d bs hr hcr).trans (if_neg (by decide))⟩

theorem outChar : Statement .outChar :=
  ⟨fun _ => rfl, fun c d bs hr hcr => (reads .outChar c d bs hr hcr).trans (if_neg (by decide))⟩

theorem outNum : Statement .outNum :=
  ⟨fun _ => rfl, fun c d bs hr hcr => (reads .outNum c d bs hr hcr).trans (if_neg (by decide))⟩

theorem inChar : Statement .inChar :=
  ⟨fun _ => rfl, fun c d bs hr hcr => (reads .inChar c d bs hr hcr).trans (if_neg (by decide))⟩

theorem inNum : Statement .inNum :=
  ⟨fun _ => rfl, fun c d bs hr hcr => (reads .inNum c d bs hr hcr).trans (if_neg (by decide))⟩

end Sys2Proof.Laws.Spelling
end

