-- ==== Sys2Proof/Tests/Slice0.lean ====
section
/-! SUPPORT. Tests with expected results from the spec: the ill-formed terms, each constructor's decoding of a word written
out from 30_encoding R100, vectors of 95_test_vectors (each named in its comment), and for every obligation with
hypotheses a state and operands that meet them, clause by clause. -/

namespace Sys2Proof.Tests

open Sys2Proof Sys2Proof.Machine

/-! ### Small states -/

/-- A running machine with an operand stack, all parameters at their defaults. -/
def vm (S : List Int) : State := { State.reset with phase := .run, S := S }

/-- The same under other parameters. -/
def vmWith (c : Config) (S : List Int) : State := { State.resetWith c with phase := .run, S := S }

/-- Small capacities: two stack elements, two return addresses, one heap address. -/
def small : Config := { stackCap := some 2, callCap := some 2, heapCap := some 1 }

/-- Flooring division, zero for unwritten cells, labels resolved on every execution. -/
def other : Config := { heapDefault := .zero, divmod := .flooring, labelResolve := .onExecute }

/-- The label table of the vectors F1 to F14. -/
def flow (pc : Nat) (S : List Int) : State := { vm S with LT := [(1, 9), (2, 0)], pc := pc }

/-- A running machine with runtime input. -/
def fed (cs : List Nat) (ended : Bool) (S : List Int) : State := { vm S with IN := { chars := cs, ended := ended } }

/-- A machine that decodes, with host events waiting. -/
def fresh (evs : List HostEvent) : State := { State.reset with inbox := evs }

/-- What an instruction leaves of the stack and `pc`. -/
def stackAfter (i : Instr) (s : State) : Option (List Int × Nat) := (next? (exec i s)).map fun t => (t.S, t.pc)

/-- The error an instruction raises, and the stack it leaves. -/
def errAfter (i : Instr) (s : State) : Option (Nat × List Int) :=
  (next? (exec i s)).map fun t => (errCode t.err, t.S)

/-- What an instruction leaves of the heap. -/
def heapAfter (i : Instr) (s : State) : Option (List Int × Memory) := (next? (exec i s)).map fun t => (t.S, t.H)

/-- What an instruction leaves of the call stack and `pc`. -/
def callsAfter (i : Instr) (s : State) : Option (List Nat × Nat) := (next? (exec i s)).map fun t => (t.C, t.pc)

/-- Symbols, as source bytes. -/
def src (syms : List Sym) : List Byte := syms.map Sym.byte

/-- The outcome of a whole source stream: the program or the error's code, offset and instruction count. -/
def decoded (c : Config) (bs : List Byte) : Option (List Instr) × Option (Nat × Nat × Nat) :=
  match Front.stream c .reset bs with
  | .ok f => (some f.P, none)
  | .error k off f => (none, some (errCode k, off, f.P.length))
  | .unreachable => (none, none)

/-! ### Ill-formed terms -/

theorem test_wf_push_range : ¬ Instr.wf Config.standard (.push (2 ^ 63)) := by decide
theorem test_wf_copy_range : ¬ Instr.wf Config.standard (.copy (-(2 ^ 63) - 1)) := by decide
theorem test_wf_slide_range : ¬ Instr.wf { W := 22 } (.slide (2 ^ 21)) := by decide
theorem test_wf_label_bits : ¬ Instr.wf { labelBits := some 1 } (.mark 2) := by decide
theorem test_wf_bounds :
    Instr.wf Config.standard (.push (-(2 ^ 63))) ∧ Instr.wf Config.standard (.push (2 ^ 63 - 1)) ∧
      Instr.wf Config.standard (.jump (2 ^ 63)) ∧ Instr.wf { labelBits := some 1 } (.mark (-1)) := by decide

/-! ### Decoding, a word of each row of 30_encoding R100 written out by hand -/

/-- The instruction at the front of a source, and how many bytes follow it. -/
def first (bs : List Byte) : Option (Instr × Nat) :=
  match decodeInstr Config.standard .reset bs with
  | .instr i rest => some (i, rest.length)
  | _ => none

-- N7v, N9v, N1v, N2v of 95_test_vectors for the operands
theorem test_dec_push : first [0x20, 0x20, 0x20, 0x09, 0x20, 0x09, 0x0A] = some (.push 5, 0) := by decide
theorem test_dec_duplicate : first [0x20, 0x0A, 0x20] = some (.duplicate, 0) := by decide
theorem test_dec_copy : first [0x20, 0x09, 0x20, 0x09, 0x09, 0x09, 0x09, 0x0A] = some (.copy (-7), 0) := by decide
theorem test_dec_swap : first [0x20, 0x0A, 0x09] = some (.swap, 0) := by decide
theorem test_dec_discard : first [0x20, 0x0A, 0x0A] = some (.discard, 0) := by decide
theorem test_dec_slide : first [0x20, 0x09, 0x0A, 0x20, 0x09, 0x20, 0x0A] = some (.slide 2, 0) := by decide
theorem test_dec_add : first [0x09, 0x20, 0x20, 0x20] = some (.add, 0) := by decide
theorem test_dec_sub : first [0x09, 0x20, 0x20, 0x09] = some (.sub, 0) := by decide
theorem test_dec_mul : first [0x09, 0x20, 0x20, 0x0A] = some (.mul, 0) := by decide
theorem test_dec_div : first [0x09, 0x20, 0x09, 0x20] = some (.div, 0) := by decide
theorem test_dec_mod : first [0x09, 0x20, 0x09, 0x09] = some (.mod, 0) := by decide
theorem test_dec_store : first [0x09, 0x09, 0x20] = some (.store, 0) := by decide
theorem test_dec_retrieve : first [0x09, 0x09, 0x09] = some (.retrieve, 0) := by decide
theorem test_dec_mark : first [0x0A, 0x20, 0x20, 0x20, 0x20, 0x20, 0x09, 0x0D] = some (.mark 1, 0) := by decide
theorem test_dec_call : first [0x0A, 0x20, 0x09, 0x09, 0x0A, 0x20] = some (.call 0, 1) := by decide
theorem test_dec_jump : first [0x0A, 0x20, 0x0A, 0x20, 0x0A] = some (.jump 0, 0) := by decide
theorem test_dec_jumpIfZero : first [0x0A, 0x09, 0x20, 0x20, 0x09, 0x0A] = some (.jumpIfZero 1, 0) := by decide
theorem test_dec_jumpIfNegative : first [0x0A, 0x09, 0x09, 0x09, 0x09, 0x0A] = some (.jumpIfNegative (-1), 0) := by
  decide
theorem test_dec_return : first [0x0A, 0x09, 0x0A] = some (.ret, 0) := by decide
theorem test_dec_end : first [0x0A, 0x0A, 0x0A] = some (.endProg, 0) := by decide
theorem test_dec_outChar : first [0x09, 0x0A, 0x20, 0x20] = some (.outChar, 0) := by decide
theorem test_dec_outNum : first [0x09, 0x0A, 0x20, 0x09] = some (.outNum, 0) := by decide
theorem test_dec_inChar : first [0x09, 0x0A, 0x09, 0x20] = some (.inChar, 0) := by decide
theorem test_dec_inNum : first [0x09, 0x0A, 0x09, 0x09] = some (.inNum, 0) := by decide

-- K2t, N15v, T9, T13, T15, T19, T21, T22, T24, T25, T26, T27
theorem test_dec_ignored_bytes : first [0x61, 0x20, 0x62, 0x0A, 0x63, 0x09] = some (.swap, 0) := by decide
theorem test_dec_errors :
    (decoded {} (src [.S, .T, .T])).2 = some (2, 2, 0) ∧ (decoded {} (src [.T, .L, .S, .L])).2 = some (2, 3, 0) ∧
      (decoded {} (src [.S, .T, .S, .L])).2 = some (3, 3, 0) ∧ (decoded {} (src [.T])).2 = some (4, 1, 0) ∧
      (decoded {} (src [.S, .S, .S, .T, .L, .L, .S, .S, .S, .T])).2 = some (4, 10, 1) ∧
      (decoded {} [0x41, 0x20, 0x20, 0x42, 0x0A]).2 = some (3, 4, 0) := by decide
theorem test_dec_crlf :
    (decoded {} [0x20, 0x20, 0x20, 0x09, 0x0D, 0x0A]).2 = some (4, 6, 1) ∧
      (decoded { crlf := .merge } [0x20, 0x20, 0x20, 0x09, 0x0D, 0x0A]).1 = some [.push 1] ∧
      (decoded { crlf := .merge } [0x20, 0x20, 0x20, 0x09, 0x0D, 0x0A, 0x09, 0x0D, 0x0A, 0x20, 0x09]).1 =
        some [.push 1, .outNum] := by decide
theorem test_dec_capacities :
    (decoded { progCap := some 0 } (src [.S, .L, .S])).2 = some (6, 2, 0) ∧
      (decoded { labelCap := some 1 } (src [.L, .S, .S, .S, .L, .L, .S, .S, .S, .T, .L])).2 = some (7, 10, 1) ∧
      (decoded { labelBits := some 1 } (src [.L, .S, .S, .S, .T, .T, .L])).2 = some (5, 5, 0) := by decide
-- T5
theorem test_dec_last_mark_wins :
    (match Front.stream {} .reset (src [.L, .S, .S, .S, .L, .L, .S, .S, .S, .L]) with
      | .ok f => some f.LT
      | _ => none) = some [(0, 1)] := by decide

/-- The windows of rows 1, 2 and 14 of the opcode table: `SS`, `SLS`, `LSS`, operand bits zero. -/
theorem test_table_words :
    decodeTableWord 8 0x00 = some (.push 0) ∧ decodeTableWord 8 0x20 = some .duplicate ∧
      decodeTableWord 8 0x80 = some (.mark 0) := by decide
theorem test_fetch_word :
    (next? (step (State.reset.withFetchWord 8 0x00))).map (fun t => (t.S, t.pc)) = some ([0], 1) := by decide

/-! ### The instructions -/

-- K2, K20
theorem test_push : stackAfter (.push (-(2 ^ 63))) (vm [7]) = some ([7, -(2 ^ 63)], 1) := by decide
theorem test_push_full : errAfter (.push 3) (vmWith small [1, 2]) = some (24, [1, 2]) := by decide
-- K3, K4
theorem test_duplicate : stackAfter .duplicate (vm [3, 9]) = some ([3, 9, 9], 1) := by decide
theorem test_duplicate_empty : errAfter .duplicate (vm []) = some (16, []) := by decide
-- K6, K7
theorem test_copy : stackAfter (.copy 2) (vm [10, 20, 30]) = some ([10, 20, 30, 10], 1) := by decide
theorem test_copy_too_deep : errAfter (.copy 3) (vm [10, 20, 30]) = some (16, [10, 20, 30]) := by decide
-- K10, K11
theorem test_swap : stackAfter .swap (vm [1, 2, 3]) = some ([1, 3, 2], 1) := by decide
theorem test_swap_one : errAfter .swap (vm [5]) = some (16, [5]) := by decide
-- K12, K13
theorem test_discard : stackAfter .discard (vm [4, 5]) = some ([4], 1) := by decide
theorem test_discard_empty : errAfter .discard (vm []) = some (16, []) := by decide
-- K14, K19
theorem test_slide : stackAfter (.slide 2) (vm [1, 2, 3, 4]) = some ([1, 4], 1) := by decide
theorem test_slide_negative : errAfter (.slide (-1)) (vm [1, 2]) = some (17, [1, 2]) := by decide
-- A2, A6
theorem test_add : stackAfter .add (vm [9, 1, 1]) = some ([9, 2], 1) := by decide
theorem test_add_wraps : stackAfter .add (vm [2 ^ 63 - 1, 1]) = some ([-(2 ^ 63)], 1) := by decide
-- A4, A10
theorem test_sub : stackAfter .sub (vm [3, 10]) = some ([-7], 1) := by decide
theorem test_sub_wraps : stackAfter .sub (vm [0, -(2 ^ 63)]) = some ([-(2 ^ 63)], 1) := by decide
-- A12, A15
theorem test_mul_wraps : stackAfter .mul (vm [-(2 ^ 63), -1]) = some ([-(2 ^ 63)], 1) := by decide
theorem test_mul_low_bits : stackAfter .mul (vm [3037000500, 3037000500]) = some ([-9223372036709301616], 1) := by
  decide
-- A17, A21
theorem test_div :
    stackAfter .div (vm [-7, 2]) = some ([-3], 1) ∧ stackAfter .div (vmWith other [-7, 2]) = some ([-4], 1) := by decide
theorem test_div_min : stackAfter .div (vm [-(2 ^ 63), -1]) = some ([-(2 ^ 63)], 1) := by decide
-- A22, A25
theorem test_mod :
    stackAfter .mod (vm [-(2 ^ 63), 2 ^ 63 - 1]) = some ([-1], 1) ∧
      stackAfter .mod (vmWith other [-(2 ^ 63), 2 ^ 63 - 1]) = some ([9223372036854775806], 1) := by decide
theorem test_mod_underflow_first : errAfter .mod (vm [0]) = some (16, [0]) := by decide
-- H5, H10
theorem test_store : heapAfter .store (vm [-1, -2]) = some ([], [(-1, -2)]) := by decide
theorem test_store_full : errAfter .store { vmWith small [2, 9] with H := [(1, 1)] } = some (26, [2, 9]) := by decide
-- H3, H4
theorem test_retrieve : stackAfter .retrieve { vm [10] with H := [(10, 42)] } = some ([42], 1) := by decide
theorem test_retrieve_unwritten :
    errAfter .retrieve (vm [3]) = some (18, [3]) ∧ heapAfter .retrieve (vmWith other [3]) = some ([0], []) := by decide
-- F1
theorem test_mark : stackAfter (.mark 7) (flow 4 []) = some ([], 5) := by decide
-- F2, F3
theorem test_call : callsAfter (.call 1) (flow 3 []) = some ([4], 9) := by decide
theorem test_call_unresolved : callsAfter (.call 5) { flow 3 [] with C := [8] } = some ([8], 3) := by decide
-- F4
theorem test_jump : stackAfter (.jump 2) (flow 6 []) = some ([], 0) := by decide
-- F5 and F6, F13
theorem test_jumpIfZero :
    stackAfter (.jumpIfZero 1) (flow 7 [5, 0]) = some ([5], 9) ∧
      stackAfter (.jumpIfZero 1) (flow 7 [5, 3]) = some ([5], 8) := by decide
theorem test_jumpIfZero_unresolved :
    stackAfter (.jumpIfZero 5) (flow 6 [1]) = some ([], 7) ∧
      errAfter (.jumpIfZero 5) { flow 6 [1] with cfg := other } = some (21, [1]) := by decide
-- F8 and F9, F12
theorem test_jumpIfNegative :
    stackAfter (.jumpIfNegative 2) (flow 6 [-1]) = some ([], 0) ∧
      stackAfter (.jumpIfNegative 2) (flow 6 [0]) = some ([], 7) := by decide
theorem test_jumpIfNegative_empty : errAfter (.jumpIfNegative 5) (flow 6 []) = some (16, []) := by decide
-- F15, F16
theorem test_return : callsAfter .ret { flow 5 [] with C := [1] } = some ([], 1) := by decide
theorem test_return_empty : errAfter .ret (flow 5 []) = some (19, []) := by decide
-- F17
theorem test_end :
    (next? (exec .endProg { flow 2 [8] with C := [4] })).map (fun t => (t.phase, t.exit, t.pc)) =
      some (.done, some 0, 2) := by decide
-- I3
theorem test_outChar : (next? (exec .outChar (vm [-1]))).map (fun t => (t.S, t.OUT)) = some ([], [-1]) := by decide
-- I5, I7
theorem test_outNum : (next? (exec .outNum (vm [-42]))).map (fun t => (t.S, t.OUT)) = some ([], [45, 52, 50]) := by
  decide
theorem test_outNum_min :
    (next? (exec .outNum (vm [-(2 ^ 63)]))).map State.OUT =
      some [45, 57, 50, 50, 51, 51, 55, 50, 48, 51, 54, 56, 53, 52, 55, 55, 53, 56, 48, 56] := by decide
-- I10, I13
theorem test_inChar : heapAfter .inChar (fed [65, 66] false [100]) = some ([], [(100, 65)]) := by decide
theorem test_inChar_exhausted : errAfter .inChar (fed [] true []) = some (22, []) := by decide
-- I15, four lines of I20
theorem test_inNum :
    heapAfter .inNum (fed [45, 49, 50, 10, 55, 10] false [3]) = some ([], [(3, -12)]) ∧
      (next? (exec .inNum (fed [45, 49, 50, 10, 55, 10] false [3]))).map (fun t => t.IN.chars) = some [55, 10] := by
  decide
theorem test_inNum_parse :
    errAfter .inNum (fed [10] false [0]) = some (23, [0]) ∧
      errAfter .inNum (fed [32, 53, 10] false [0]) = some (23, [0]) ∧
      errAfter .inNum (fed [53, 13, 10] false [0]) = some (23, [0]) ∧
      errAfter .inNum (fed [45, 45, 53, 10] false [0]) = some (23, [0]) := by decide

/-! ### Witnesses: for each obligation, hypotheses met together -/

theorem witness_PushPushesItsOperand :
    hasRoom small.stackCap (vmWith small [7]).S.length ∧ ¬ hasRoom small.stackCap (vmWith small [1, 2]).S.length := by
  decide

theorem witness_DuplicateCopiesTheTop :
    (vm []).S = [] ∧ ((vmWith small [7]).S = [] ++ [7] ∧ hasRoom small.stackCap (vmWith small [7]).S.length) ∧
      ((vmWith small [1, 2]).S = [1] ++ [2] ∧ ¬ hasRoom small.stackCap (vmWith small [1, 2]).S.length) := by decide

theorem witness_CopyPushesTheElementAtDepth :
    (-1 : Int) < 0 ∧ (vm [10, 20, 30]).S.length ≤ 3 ∧
      ((vm [10, 20, 30]).S = [] ++ 10 :: [20, 30] ∧ hasRoom (vm []).cfg.stackCap (vm [10, 20, 30]).S.length) ∧
      ((vmWith small [1, 2]).S = [] ++ 1 :: [2] ∧ ¬ hasRoom small.stackCap (vmWith small [1, 2]).S.length) := by decide

theorem witness_SwapExchangesTheTopTwo : (vm [5]).S.length < 2 ∧ (vm [1, 2]).S = [] ++ [1, 2] := by decide

theorem witness_DiscardDropsTheTop : (vm []).S = [] ∧ (vm [4, 5]).S = [4] ++ [5] := by decide

theorem witness_SlideRemovesBelowTheTop :
    (-1 : Int) < 0 ∧ (vm [1, 2, 3, 4]).S.length < 4 + 1 ∧ (vm [1, 2, 3, 4]).S = [] ++ [1, 2, 3] ++ [4] := by decide

theorem witness_AddSubMulWrapTheExactResult : (vm [8]).S.length < 2 ∧ (vm [9, 6, -7]).S = [9] ++ [6, -7] := by decide

theorem witness_DivPushesTheQuotient :
    (vm [0]).S.length < 2 ∧ ((vm [5, 0]).S = [] ++ [5, 0] ∧ (0 : Int) = 0) ∧
      ((vm [-7, 2]).S = [] ++ [-7, 2] ∧ (2 : Int) ≠ 0 ∧ (vm []).cfg.divmod = .truncating) ∧
      ((vmWith other [-7, 2]).S = [] ++ [-7, 2] ∧ (2 : Int) ≠ 0 ∧ other.divmod = .flooring) ∧
      ((vm [-(2 ^ 63), -1]).S = [] ++ [-(2 ^ 63), -1] ∧ -(2 ^ 63) = minWord (vm []).cfg.W ∧ 1 ≤ (vm []).cfg.W) := by
  decide

theorem witness_ModPushesTheRemainder :
    (vm [0]).S.length < 2 ∧ ((vm [5, 0]).S = [] ++ [5, 0] ∧ (0 : Int) = 0) ∧
      ((vm [-7, 3]).S = [] ++ [-7, 3] ∧ (3 : Int) ≠ 0 ∧ (vm []).cfg.divmod = .truncating ∧ (-7 : Int) ≤ 0) ∧
      ((vm [7, -3]).S = [] ++ [7, -3] ∧ (-3 : Int) ≠ 0 ∧ (vm []).cfg.divmod = .truncating ∧ (0 : Int) ≤ 7) ∧
      ((vmWith other [-7, 3]).S = [] ++ [-7, 3] ∧ (3 : Int) ≠ 0 ∧ other.divmod = .flooring ∧ (0 : Int) < 3) ∧
      ((vmWith other [7, -3]).S = [] ++ [7, -3] ∧ (-3 : Int) ≠ 0 ∧ other.divmod = .flooring ∧ (-3 : Int) < 0) := by
  decide

theorem witness_WrapIsTheCongruentWord :
    1 ≤ 22 ∧ isWord 22 (-(2 ^ 21)) ∧ (((2 ^ 22 : Nat) : Int) ∣ -(2 ^ 21) - 2 ^ 21) := by decide

theorem witness_StoreWritesOneCell :
    (vm [1]).S.length < 2 ∧
      ((vmWith small [1, 9]).S = [] ++ [1, 9] ∧ heapRoom { vmWith small [1, 9] with H := [(1, 1)] } 1) ∧
      ((vmWith small [2, 9]).S = [] ++ [2, 9] ∧ ¬ heapRoom { vmWith small [2, 9] with H := [(1, 1)] } 2) := by decide

theorem witness_RetrieveReadsOneCell :
    (vm []).S = [] ∧ ((vm [10]).S = [] ++ [10] ∧ IntMap.get? [((10 : Int), (42 : Word))] 10 = some 42) ∧
      ((vm [3]).S = [] ++ [3] ∧ IntMap.get? (vm []).H 3 = none ∧ (vm []).cfg.heapDefault = .fault) ∧
      ((vmWith other [3]).S = [] ++ [3] ∧ IntMap.get? (vmWith other []).H 3 = none ∧ other.heapDefault = .zero) := by
  decide

theorem witness_RetrieveAfterStoreYieldsTheValue :
    (vm [-1, -2]).S = [] ++ [-1, -2] ∧ heapRoom (vm [-1, -2]) (-1) ∧
      exec .store (vm [-1, -2]) = .next { vm [] with H := [(-1, -2)], pc := 1 } ∧
      ({ vm [-1] with H := [(-1, -2)] } : State).S = [] ++ [-1] := by
  refine ⟨rfl, by decide, rfl, rfl⟩

theorem witness_CallSavesTheReturnAddress :
    ¬ hasRoom small.callCap ({ vmWith small [] with C := [1, 2] } : State).C.length ∧
      (hasRoom small.callCap ({ vmWith small [] with C := [1] } : State).C.length ∧
        IntMap.get? (flow 3 []).LT 5 = none) ∧
      (hasRoom (flow 3 []).cfg.callCap (flow 3 []).C.length ∧ IntMap.get? (flow 3 []).LT 1 = some 9) := by decide

theorem witness_JumpGoesToTheLabel :
    IntMap.get? (flow 6 []).LT 5 = none ∧ IntMap.get? (flow 6 []).LT 2 = some 0 := by decide

theorem witness_ConditionalJumpsTestAndPop :
    (flow 6 []).S = [] ∧
      ((flow 7 [5, 0]).S = [5] ++ [0] ∧ IntMap.get? (flow 7 []).LT 1 = some 9 ∧ IntMap.get? (flow 7 []).LT 5 = none) ∧
      ((flow 6 [-1]).S = [] ++ [-1] ∧ (-1 : Int) < 0) ∧
      ((flow 6 [1]).S = [] ++ [1] ∧ (1 : Int) ≠ 0 ∧ (0 : Int) ≤ 1 ∧ (flow 6 []).cfg.labelResolve = .onTaken) ∧
      (other.labelResolve = .onExecute ∧ IntMap.get? ({ flow 6 [1] with cfg := other } : State).LT 5 = none) := by
  decide

theorem witness_ReturnGoesToTheSavedAddress :
    (flow 5 []).C = [] ∧ ({ flow 5 [] with C := [1] } : State).C = [] ++ [1] := by decide

theorem witness_PairsThatUndoEachOther :
    (hasRoom (flow 3 []).cfg.callCap (flow 3 []).C.length ∧ IntMap.get? (flow 3 []).LT 1 ≠ none ∧
        exec (.call 1) (flow 3 []) = .next { flow 9 [] with C := [4] } ∧ ({ flow 11 [] with C := [4] } : State).C = [4]) ∧
      (hasRoom (vm [4, 9]).cfg.stackCap (vm [4, 9]).S.length ∧
        exec (.push (-3)) (vm [4, 9]) = .next { vm [4, 9, -3] with pc := 1 }) ∧
      (2 ≤ (vm [1, 2, 3]).S.length ∧ exec .swap (vm [1, 2, 3]) = .next { vm [1, 3, 2] with pc := 1 }) := by
  refine ⟨⟨by decide, by decide, rfl, rfl⟩, ⟨by decide, rfl⟩, by decide, rfl⟩

theorem witness_OutputPopsAndEmits : (vm []).S = [] ∧ (vm [2]).S = [] ++ [2] := by decide

theorem witness_InCharStoresOneCharacter :
    ((fed [] false []).IN.chars = [] ∧ (fed [] false []).IN.ended = false) ∧
      ((fed [] true []).IN.chars = [] ∧ (fed [] true []).IN.ended = true) ∧
      ((fed [65] false []).IN.chars = 65 :: [] ∧ (fed [65] false []).S = []) ∧
      ((fed [65, 66] true [100]).IN.chars = 65 :: [66] ∧ (fed [65, 66] true [100]).S = [] ++ [100] ∧
        heapRoom (fed [65, 66] true [100]) 100) ∧
      ¬ heapRoom { fed [65] false [2] with cfg := small, H := [(1, 1)] } 2 := by decide

theorem witness_InNumStoresTheNumberOfALine :
    (10 ∉ (fed [49] false []).IN.chars ∧ (fed [49] false []).IN.ended = false) ∧
      (10 ∉ (fed [49] true []).IN.chars ∧ (fed [49] true []).IN.ended = true) ∧
      ((fed [43, 55, 10, 56] false [3]).IN.chars = [43, 55] ++ 10 :: [56] ∧ 10 ∉ [43, 55] ∧ lineDenotes [43, 55] 7 ∧
        isWord 64 7 ∧ (fed [43, 55, 10, 56] false [3]).S = [] ++ [3] ∧ heapRoom (fed [43, 55, 10, 56] false [3]) 3) ∧
      ((fed [] false []).S = [] ∧ ¬ heapRoom { fed [55, 10] false [2] with cfg := small, H := [(1, 1)] } 2) ∧
      (∀ n, ¬ lineDenotes [] n) ∧
      (lineDenotes [52, 49, 57, 52, 51, 48, 52] 4194304 ∧ ¬ isWord 22 4194304) := by
  refine ⟨by decide, by decide, ⟨rfl, by decide, ⟨[7], by decide, .inr (.inl (by decide))⟩, by decide, rfl, by decide⟩,
    by decide, ?_, ⟨[4, 1, 9, 4, 3, 0, 4], by decide, .inl (by decide)⟩, by decide⟩
  rintro n ⟨ds, ⟨hne, _⟩, h | h | h⟩
  · exact hne (List.map_eq_nil_iff.mp h.1.symm)
  · simp at h
  · simp at h

/-- A machine about to raise `StackUnderflow` at index 0. -/
def failing : State := { vm [5] with P := [.swap] }

theorem witness_RunErrorEntry :
    failing.inbox = [] ∧ failing.phase = .run ∧ step failing = .next (runError .stackUnderflow failing) ∧
      (runError .stackUnderflow failing).phase = .runErr ∧
      failing.P[failing.pc]? ≠ some .inChar ∧ failing.P[failing.pc]? ≠ some .inNum := by
  refine ⟨rfl, rfl, rfl, rfl, by decide, by decide⟩

/-- A decoder that has read `SS` and is given an `L`. -/
def badSign : State :=
  { fresh [.byte 0x0A] with
    D := { Decoder.reset with stage := .sign, imp := some .stack, op := some .push, offset := 2 } }

theorem witness_DecodeErrorEntry :
    badSign.phase = .decode ∧
      ∃ t, step badSign = .next t ∧ t.phase = .decodeErr ∧ t.err = .missingSign ∧ t.errpos.offset = some 2 := by
  exact ⟨rfl, _, rfl, rfl, rfl, rfl⟩

theorem witness_RunErrorsArePrecise :
    ((vm [5]).phase = .run ∧ exec .swap (vm [5]) = .next (runError .stackUnderflow (vm [5])) ∧
        (runError .stackUnderflow (vm [5])).phase = .runErr ∧ Instr.swap ≠ .inChar ∧ Instr.swap ≠ .inNum) ∧
      exec .inChar (fed [] true []) = .next (inputError .inputExhausted (fed [] true [])) := by
  exact ⟨⟨rfl, rfl, rfl, by decide, by decide⟩, rfl⟩

theorem witness_UnderflowExactlyWhenTooFewValues :
    (Instr.slide 4 ≠ .inChar ∧ Instr.slide 4 ≠ .inNum ∧ (vm [1, 2, 3, 4]).S.length < stackReads (.slide 4)) ∧
      ((fed [120] false []).S.length < stackReads .inChar ∧ (fed [120] false []).IN.chars ≠ []) ∧
      ((fed [53, 10] false []).S.length < stackReads .inNum ∧ (fed [53, 10] false []).IN.chars = [53] ++ 10 :: [] ∧
        10 ∉ [53] ∧ lineDenotes [53] 5 ∧ isWord 64 5) ∧
      ((vm [5]).phase = .run ∧ exec .swap (vm [5]) = .next (runError .stackUnderflow (vm [5])) ∧
        (runError .stackUnderflow (vm [5])).phase = .runErr ∧
        (runError .stackUnderflow (vm [5])).err = .stackUnderflow) := by
  exact ⟨by decide, by decide, ⟨by decide, rfl, by decide, ⟨[5], by decide, .inl (by decide)⟩, by decide⟩,
    rfl, rfl, rfl, rfl⟩

theorem witness_ErrorPriority :
    (vm [0]).S = [0] ∧ ((-1 : Int) < 0 ∧ (vm []).S = []) ∧
      (¬ hasRoom (some 0) (vmWith { stackCap := some 0 } []).S.length ∧ (vmWith { stackCap := some 0 } []).S = [] ∧
        (vmWith { stackCap := some 0 } []).S.length ≤ 0) ∧
      (¬ hasRoom small.callCap [1, 2].length ∧ IntMap.get? (flow 6 []).LT 5 = none) ∧
      ((fed [] true []).IN = { chars := [], ended := true } ∧ (fed [] true []).S = []) ∧
      ((fed [120, 10] false []).IN.chars = [120] ++ 10 :: [] ∧ 10 ∉ [120] ∧ (∀ n, ¬ lineDenotes [120] n)) ∧
      (¬ hasRoom small.heapCap [((1 : Int), (1 : Int))].length ∧ (vmWith small [1]).S.length < 2 ∧
        (fed [53, 10] false []).IN.chars ≠ [] ∧ lineDenotes [53] 5 ∧ isWord 64 5) ∧
      (Opcode.push.isNumber = true ∧ ¬ isWord 64 (2 ^ 63) ∧ ¬ hasRoom (some 0) ([] : List Instr).length) := by
  refine ⟨rfl, by decide, by decide, by decide, by decide, ⟨rfl, by decide, ?_⟩,
    ⟨by decide, by decide, by decide, ⟨[5], by decide, .inl (by decide)⟩, by decide⟩, by decide⟩
  rintro n ⟨ds, ⟨_, hds⟩, h | h | h⟩
  · match ds, h.1 with
    | [d], e =>
      have := hds d (by simp)
      simp at e
      omega
  · simp at h
  · simp at h

theorem witness_ErrorCodesAndTheirRaisers :
    (vm [5, 0]).phase = .run ∧ exec .div (vm [5, 0]) = .next (runError .divisionByZero (vm [5, 0])) ∧
      (runError .divisionByZero (vm [5, 0])).phase = .runErr := ⟨rfl, rfl, rfl⟩

/-- Each final phase with an event that is no reset, and each with a reset. -/
theorem witness_OnlyResetLeavesAFinalPhase :
    (let s : State := { fresh [.start] with phase := .done, exit := some 0 }
     s.phase = .done ∧ s.inbox.head? ≠ some .reset ∧ step s = .next { s with inbox := [] }) ∧
      (let s := { decodeError .missingSign 2 (fresh []) with inbox := [.eof] }
       s.phase = .decodeErr ∧ s.inbox.head? ≠ some .reset ∧ step s = .next { s with inbox := [] }) ∧
      (let s := { runError .divisionByZero (vm [5, 0]) with inbox := [.inputChar (2 ^ 63)] }
       s.phase = .runErr ∧ s.inbox.head? ≠ some .reset ∧ step s = .next { s with inbox := [] }) ∧
      (let s := { finish (vm [7]) with inbox := [.reset] }
       s.phase = .done ∧ s.inbox.head? = some .reset ∧ step s = .next State.reset) ∧
      (let s := { decodeError .missingSign 2 (fresh []) with inbox := [.reset] }
       s.phase = .decodeErr ∧ s.inbox.head? = some .reset ∧ step s = .next State.reset) ∧
      (let s := { runError .divisionByZero (vm [5, 0]) with inbox := [.reset] }
       s.phase = .runErr ∧ s.inbox.head? = some .reset ∧ step s = .next State.reset) := by
  exact ⟨⟨rfl, by decide, rfl⟩, ⟨rfl, by decide, rfl⟩, ⟨rfl, by decide, rfl⟩, ⟨rfl, rfl, rfl⟩, ⟨rfl, rfl, rfl⟩,
    rfl, rfl, rfl⟩

theorem witness_NoStopButOnAForeignDelivery :
    decoderReachable badSign.cfg badSign.D ∧
      (let s : State := fresh [.inputChar (2 ^ 63)]
       decoderReachable s.cfg s.D ∧ step s = .refused (.notACharacter (2 ^ 63))) := by
  have h : decoderReachable Config.standard Decoder.reset := ⟨fun _ => rfl, rfl, .inl rfl, rfl, rfl, rfl, rfl⟩
  exact ⟨⟨fun _ => rfl, ⟨.push, rfl, .inl rfl, rfl, rfl⟩, rfl, rfl, rfl⟩, h, rfl⟩

/-- An input error, then a delivery to whatever the error left (44_io R266), and a reset. -/
theorem witness_NothingReadsTheInputAfterAnError :
    let e : State := inputError .inputExhausted (fed [] true [0])
    let s : State := { e with inbox := [.inputChar 65] }
    let r : State := { e with inbox := [.reset] }
    s.phase = .runErr ∧ step s = .next { s with inbox := [] } ∧ r.phase = .runErr ∧ step r = hostReset e := by
  exact ⟨rfl, rfl, rfl, rfl⟩

theorem witness_DeliveriesExtendTheInput :
    (let s := fresh [.inputChar (2 ^ 63 - 1)]
     s.phase = .decode ∧ s.IN.ended = false ∧ ((2 ^ 63 - 1 : Nat) : Int) < halfRange s.cfg.W) ∧
      (let s := fresh [.inputEnd]
       s.phase = .decode ∧ s.IN.ended = false) := by decide

/-- A delivery after the end-of-stream mark is ignored (log entry 5). -/
theorem test_inputAfterEnd_ignored :
    let s : State := { fresh [.inputChar 65, .inputEnd] with IN := { chars := [66], ended := true } }
    step s = .next { s with inbox := [.inputEnd] } ∧ step { s with inbox := [.inputEnd] } = .next { s with inbox := [] } := by
  exact ⟨rfl, rfl⟩

theorem witness_TokenizerTable :
    ((0x41 : Byte) ≠ 0x20 ∧ (0x41 : Byte) ≠ 0x09 ∧ (0x41 : Byte) ≠ 0x0A ∧ (0x41 : Byte) ≠ 0x0D) ∧
      ¬ ((0x0A : Byte) = 0x0A ∧ false = true) := by decide

theorem witness_DecoderStepOnAByte :
    (let s : State := { fresh [.byte 0x20] with phase := .ready }
     s.inbox = .byte 0x20 :: [] ∧ s.phase ≠ .decode) ∧
      (let s := fresh [.byte 0x41]
       s.phase = .decode ∧ tokenize s.cfg.crlf s.D.cr 0x41 = (none, false)) ∧
      (let s := fresh [.byte 0x20]
       tokenize s.cfg.crlf s.D.cr 0x20 = (some .S, false) ∧ ∃ d, s.D.symbol s.cfg .S = .goOn d) ∧
      (let d : Decoder := { Decoder.reset with stage := .opcode, imp := some .stack, sel := some .L, offset := 3 }
       d.symbol {} .S = .complete .duplicate ∧
         (∃ f, Front.complete {} { D := d, P := [], LT := [] } 2 .duplicate = .ok f) ∧
         Front.complete { progCap := some 0 } { D := d, P := [], LT := [] } 2 .duplicate =
           .error .programCapacity 2 { D := d, P := [], LT := [] }) ∧
      badSign.D.symbol badSign.cfg .L = .error .missingSign := by
  exact ⟨by decide, by decide, ⟨by decide, _, rfl⟩, ⟨rfl, ⟨_, rfl⟩, rfl⟩, rfl⟩

theorem witness_ImpStageSelectsTheFamily :
    (Decoder.reset.stage = .imp ∧ Decoder.reset.sel = none) ∧
      ({ Decoder.reset with sel := some .T } : Decoder).sel = some .T := by decide

/-- Each row of the table is a decoder in stage OPCODE. -/
theorem witness_OpcodeStageTable :
    ∀ r ∈ opcodeStates, ∃ d : Decoder, d.stage = .opcode ∧ d.imp = some r.1 ∧ d.sel = r.2 :=
  fun r _ => ⟨{ Decoder.reset with stage := .opcode, imp := some r.1, sel := r.2 }, rfl, rfl, rfl⟩

theorem witness_NineBadSelectors : (Family.io, some Sym.T) ∈ opcodeStates := by decide

theorem witness_OperandStages :
    badSign.D.stage = .sign ∧
      (Opcode.mark.isLabel = true ∧ hasRoom (some 1) 0 ∧ ¬ hasRoom (some 1) 1) ∧
      (Opcode.push.isNumber = true ∧ (2 ^ 63 : Int) = (if false = true then -((2 ^ 63 : Nat) : Int) else (2 ^ 63 : Nat)) ∧
        ¬ isWord 64 (2 ^ 63)) ∧
      ((-(2 ^ 63) : Int) = (if true = true then -((2 ^ 63 : Nat) : Int) else (2 ^ 63 : Nat)) ∧ isWord 64 (-(2 ^ 63))) ∧
      (let c : Config := { rangeCheck := .early }
       c.rangeCheck = .early ∧ 2 ^ (c.W - 1) < 2 * 2 ^ 62 + 1 ∧ 2 * 2 ^ 62 + 0 ≤ 2 ^ (c.W - 1)) ∧
      Config.standard.rangeCheck = .atTerminator := by decide

theorem witness_CompletingAnInstruction :
    ¬ hasRoom (some 1) [Instr.swap].length ∧ hasRoom (some 2) [Instr.swap].length ∧
      (hasRoom none [Instr.mark 0].length ∧ Instr.mark 1 = .mark 1 ∧ IntMap.get? [((0 : Int), 0)] 1 = none ∧
        ¬ hasRoom (some 1) [((0 : Int), 0)].length) ∧
      (∀ l, Instr.mark 0 = .mark l → IntMap.get? [((0 : Int), 0)] l ≠ none ∨ hasRoom (some 1) [((0 : Int), 0)].length) ∧
      (∀ l, Instr.swap = .mark l → IntMap.get? ([] : LabelTable) l ≠ none ∨ hasRoom (some 0) ([] : LabelTable).length) := by
  refine ⟨by decide, by decide, by decide, ?_, ?_⟩
  · intro l h
    cases h
    exact .inl (by decide)
  · intro l h
    cases h

theorem witness_EndOfStream :
    ((fresh [.eof]).inbox = .eof :: [] ∧ (fresh [.eof]).phase = .decode ∧ (fresh [.eof]).D.stage = .imp ∧
        (fresh [.eof]).D.sel = none) ∧
      (let s : State := { fresh [.eof] with D := { Decoder.reset with sel := some .T, offset := 1 } }
       s.phase = .decode ∧ ¬ (s.D.stage = .imp ∧ s.D.sel = none)) := by decide

theorem witness_DecodeEncodeAgree :
    (Instr.push (-(2 ^ 63))).wf Config.standard ∧ (Instr.mark (2 ^ 70)).wf Config.standard ∧
      Decoder.reset.restart = Decoder.reset ∧ Decoder.reset.cr = false := by decide

theorem witness_SourceBytesBecomeTheProgram :
    let is := [Instr.mark 0, .push 1, .mark 0]
    let s : State := { fresh ((is.flatMap encode).map .byte ++ .eof :: .start :: []) with
      cfg := { progCap := some 3, labelCap := some 3 } }
    s.phase = .decode ∧ s.D.restart = s.D ∧ s.D.cr = false ∧ (∀ i ∈ is, i.wf s.cfg) ∧
      (∀ k ∈ s.cfg.progCap, s.P.length + is.length ≤ k) ∧ (∀ k ∈ s.cfg.labelCap, s.LT.length + is.length ≤ k) ∧
      s.inbox = (is.flatMap encode).map .byte ++ .eof :: .start :: [] := by decide

theorem witness_IgnoredBytesDoNotMatter : Config.standard.crlf = .independent := rfl

theorem witness_StepRunsTheInstructionAtPc :
    failing.inbox = [] ∧ failing.phase = .run ∧ failing.P[failing.pc]? = some .swap ∧
      ({ failing with pc := 1 } : State).P.length ≤ ({ failing with pc := 1 } : State).pc := by decide

theorem witness_StartOnlyFromReady :
    ({ fresh [.start] with phase := .ready } : State).inbox = .start :: [] ∧
      (fresh [.start]).inbox = .start :: [] ∧ (fresh [.start]).phase ≠ .ready := by decide

theorem witness_ResetLeavesTheStatedValues :
    let s : State := { runError .stackUnderflow failing with inbox := [.reset] }
    s.inbox = .reset :: [] ∧ step s = .next State.reset := ⟨rfl, rfl⟩

/-- A running machine that meets the invariant, with a step to take. -/
def sound : State := { vm [5] with P := [.push 5, .mark 3, .outNum], LT := [(3, 1)], pc := 1 }

theorem sound_inv : Inv sound := by
  refine ⟨⟨⟨fun _ => rfl, rfl, .inl rfl, rfl, rfl, rfl, rfl⟩, fun _ => rfl⟩,
    ⟨by decide, fun l => ?_, by decide, by decide, by decide⟩,
    ⟨by decide, by decide, by decide, by decide, by decide, by decide, by decide, by decide, fun _ => by decide⟩,
    ⟨rfl, rfl, rfl⟩, fun h => ?_⟩
  · simp only [sound, vm, IntMap.get?, lastMark, lastMarkFrom, Instr.mark.injEq, reduceCtorEq, if_false]
    split_ifs <;> rfl
  · rcases h with h | h | h <;> cases h

theorem witness_StepKeepsTheInvariant : Inv sound ∧ step sound = .next { sound with pc := 2 } :=
  ⟨sound_inv, rfl⟩

theorem witness_StepKeepsDecoderAndStatus :
    DecoderInv sound ∧ statusInv sound ∧ step sound = .next { sound with pc := 2 } :=
  ⟨sound_inv.decoder, sound_inv.status, rfl⟩

theorem witness_ProgramIsImmutableOnceDecoded :
    step sound = .next { sound with pc := 2 } ∧ sound.phase ≠ .decode ∧ sound.inbox.head? ≠ some .reset :=
  ⟨rfl, by decide, by decide⟩

theorem witness_VmIsIdleOutsideRun :
    let s : State := { fresh [.start] with phase := .ready }
    s.phase ≠ .run ∧ s.inbox.head? ≠ some .reset ∧ step s = .next { s with inbox := [], phase := .run } :=
  ⟨by decide, by decide, rfl⟩

theorem witness_OutputAndWrittenCellsStay :
    let s : State := { sound with pc := 2, H := [(7, 0)] }
    s.inbox.head? ≠ some .reset ∧ step s = .next { s with S := [], OUT := [53], pc := 3 } ∧ IntMap.get? s.H 7 ≠ none :=
  ⟨by decide, rfl, by decide⟩

theorem witness_FrameOfEveryInstruction :
    exec .outNum (vm [5]) = .next { vm [] with OUT := [53], pc := 1 } ∧
      Instr.outNum.opcode ∉ [Opcode.call, .ret] ∧ Instr.outNum.opcode ∉ [Opcode.inChar, .inNum] ∧
      (exec (.mark 1) (vm [5]) = .next { vm [5] with pc := 1 } ∧
        (Instr.mark 1).opcode ∈ [Opcode.mark, .call, .jump, .ret, .endProg] ∧
        (Instr.mark 1).opcode ∉ [Opcode.outChar, .outNum] ∧
        (Instr.mark 1).opcode ∉ [Opcode.call, .jump, .jumpIfZero, .jumpIfNegative, .ret, .endProg]) :=
  ⟨rfl, by decide, by decide, rfl, by decide, by decide, by decide⟩

theorem witness_HeapFrame :
    exec .store (vm [10, 42]) = .next { vm [] with H := [(10, 42)], pc := 1 } ∧
      writesCell .store (vm [10, 42]) ≠ some 11 := ⟨rfl, by decide⟩

theorem witness_StackFrame :
    exec (.slide 1) (vm [1, 2, 3]) = .next { vm [1, 3] with pc := 1 } := rfl

end Sys2Proof.Tests
end

