-- ==== Sys2Proof/Proofs/Wrap.lean ====
section
/-! PROOFS. `wrap` against 00_scope R9. The `2 ^ W` words are consecutive, so every residue class modulo `2 ^ W` has
exactly one word in it, and `wrap` stays in the class of its argument. -/

namespace Sys2Proof.Machine

/-- `MIN .. MAX` holds `2 ^ W` integers. At `W = 0`, which 00_scope R7 excludes, it would hold two. -/
theorem two_pow_eq_two_mul_halfRange {W : Nat} (hW : 1 ≤ W) : ((2 ^ W : Nat) : Int) = 2 * halfRange W := by
  exact_mod_cast (mul_pow_sub_one (by omega : W ≠ 0) 2).symm

/-- `wrap` stays in the residue class of its argument. -/
theorem two_pow_dvd_wrap_sub (W : Nat) (x : Int) : ((2 ^ W : Nat) : Int) ∣ wrap W x - x := by
  have hsub : wrap W x - x = (x + halfRange W) % ((2 ^ W : Nat) : Int) - (x + halfRange W) := by
    unfold wrap
    ring
  rw [hsub]
  exact Int.dvd_emod_sub_self

/-- Two words differ by less than `2 ^ W`, so congruent ones are equal. -/
theorem eq_of_isWord_of_two_pow_dvd_sub {W : Nat} (hW : 1 ≤ W) {y z : Int} (hy : isWord W y) (hz : isWord W z)
    (hdvd : ((2 ^ W : Nat) : Int) ∣ y - z) : y = z := by
  obtain ⟨hy1, hy2⟩ := isWord_iff.mp hy
  obtain ⟨hz1, hz2⟩ := isWord_iff.mp hz
  have hlt : |y - z| < ((2 ^ W : Nat) : Int) := by
    rw [two_pow_eq_two_mul_halfRange hW, abs_lt]
    omega
  exact Int.sub_eq_zero.mp (Int.eq_zero_of_abs_lt_dvd hdvd hlt)

/-- Settles O10: a word congruent to `x` is congruent to `wrap x`, and congruent words are equal. -/
theorem wrapIsTheCongruentWord : Obligations.WrapIsTheCongruentWord := by
  intro W x hW
  refine ⟨wrap_isWord W x, two_pow_dvd_wrap_sub W x, fun y hy hdvd => ?_⟩
  have hyw : ((2 ^ W : Nat) : Int) ∣ y - wrap W x := by
    have h := dvd_sub hdvd (two_pow_dvd_wrap_sub W x)
    rwa [sub_sub_sub_cancel_right] at h
  exact eq_of_isWord_of_two_pow_dvd_sub hW hy (wrap_isWord W x) hyw

end Sys2Proof.Machine
end

