-- ==== Sys2Proof/Proofs/Effects.lean ====
section
/-! PROOFS. What an instruction, a host event and a step can do, said once: a relation with one constructor per way of
ending, and the lemma that a next state is one of these ways. Frames and invariants are case splits over them. -/

namespace Sys2Proof.Machine

/-! ### Instructions -/

/-- The instruction takes runtime input (44_io R262, R263). -/
abbrev takesInput (i : Instr) : Prop := i = .inChar ∨ i = .inNum

/-- The ways an instruction can end in a state `s`: its result, the entry on an error, or a hold of the two input
instructions (32_vm_cycle R168). -/
inductive InstrEffect (s : State) : Instr → State → Prop
  | push {n} (hroom : hasRoom s.cfg.stackCap s.S.length) :
      InstrEffect s (.push n) (advance { s with S := s.S ++ [n] })
  | duplicate {below v} (hS : s.S = below ++ [v]) (hroom : hasRoom s.cfg.stackCap s.S.length) :
      InstrEffect s .duplicate (advance { s with S := s.S ++ [v] })
  | copy {below v above} (hS : s.S = below ++ v :: above) (hroom : hasRoom s.cfg.stackCap s.S.length) :
      InstrEffect s (.copy above.length) (advance { s with S := s.S ++ [v] })
  | swap {below a b} (hS : s.S = below ++ [a, b]) :
      InstrEffect s .swap (advance { s with S := below ++ [b, a] })
  | discard {below v} (hS : s.S = below ++ [v]) :
      InstrEffect s .discard (advance { s with S := below })
  | slide {below mid v} (hS : s.S = below ++ mid ++ [v]) :
      InstrEffect s (.slide mid.length) (advance { s with S := below ++ [v] })
  | add {below a b} (hS : s.S = below ++ [a, b]) :
      InstrEffect s .add (advance { s with S := below ++ [wrap s.cfg.W (a + b)] })
  | sub {below a b} (hS : s.S = below ++ [a, b]) :
      InstrEffect s .sub (advance { s with S := below ++ [wrap s.cfg.W (a - b)] })
  | mul {below a b} (hS : s.S = below ++ [a, b]) :
      InstrEffect s .mul (advance { s with S := below ++ [wrap s.cfg.W (a * b)] })
  | div {below a b} (hS : s.S = below ++ [a, b]) (hb : b ≠ 0) :
      InstrEffect s .div (advance { s with S := below ++ [wrap s.cfg.W (quotient s.cfg.divmod a b)] })
  | mod {below a b} (hS : s.S = below ++ [a, b]) (hb : b ≠ 0) :
      InstrEffect s .mod (advance { s with S := below ++ [remainder s.cfg.divmod a b] })
  | store {below a v H} (hS : s.S = below ++ [a, v]) (hH : memWrite s.cfg s.H a v = some H) :
      InstrEffect s .store (advance { s with S := below, H := H })
  | retrieve {below a v} (hS : s.S = below ++ [a]) (hv : memRead s.cfg s.H a = some v) :
      InstrEffect s .retrieve (advance { s with S := below ++ [v] })
  | mark {l} : InstrEffect s (.mark l) (advance s)
  | call {l j} (hroom : hasRoom s.cfg.callCap s.C.length) (hl : IntMap.get? s.LT l = some j) :
      InstrEffect s (.call l) { s with C := s.C ++ [s.pc + 1], pc := j }
  | jump {l j} (hl : IntMap.get? s.LT l = some j) : InstrEffect s (.jump l) { s with pc := j }
  | jumpIfZero {l below x j} (hS : s.S = below ++ [x]) (hx : testZero x = true) (hl : IntMap.get? s.LT l = some j) :
      InstrEffect s (.jumpIfZero l) { s with S := below, pc := j }
  | noJumpIfZero {l below x} (hS : s.S = below ++ [x]) (hx : testZero x = false) :
      InstrEffect s (.jumpIfZero l) (advance { s with S := below })
  | jumpIfNegative {l below x j} (hS : s.S = below ++ [x]) (hx : testNegative x = true)
      (hl : IntMap.get? s.LT l = some j) : InstrEffect s (.jumpIfNegative l) { s with S := below, pc := j }
  | noJumpIfNegative {l below x} (hS : s.S = below ++ [x]) (hx : testNegative x = false) :
      InstrEffect s (.jumpIfNegative l) (advance { s with S := below })
  | ret {below r} (hC : s.C = below ++ [r]) : InstrEffect s .ret { s with C := below, pc := r }
  | endProg : InstrEffect s .endProg (finish s)
  | outChar {below v} (hS : s.S = below ++ [v]) :
      InstrEffect s .outChar (advance (emit [v] { s with S := below }))
  | outNum {below v} (hS : s.S = below ++ [v]) :
      InstrEffect s .outNum (advance (emit (dec v) { s with S := below }))
  | inChar {below a H ch rest} (hIN : s.IN.chars = ch :: rest) (hS : s.S = below ++ [a])
      (hH : memWrite s.cfg s.H a (ch : Int) = some H) :
      InstrEffect s .inChar (advance { s with S := below, H := H, IN := { s.IN with chars := rest } })
  | inNum {below a H line rest n} (hIN : s.IN.chars = line ++ 10 :: rest) (hn : parseLine line = some n)
      (hw : isWord s.cfg.W n) (hS : s.S = below ++ [a]) (hH : memWrite s.cfg s.H a n = some H) :
      InstrEffect s .inNum (advance { s with S := below, H := H, IN := { s.IN with chars := rest } })
  | error {i k} (hk : isRunKind k) : InstrEffect s i (runError k s)
  | errorOnInput {i k} (hi : takesInput i) (hk : isRunKind k) : InstrEffect s i (inputError k s)
  | hold {i} (hi : takesInput i) : InstrEffect s i s

/-- An instruction that raises a run-time error ends as the relation says. -/
theorem InstrEffect.of_raise {i : Instr} {k : ErrKind} {s t : State} (hk : isRunKind k) (h : raise k s = .next t) :
    InstrEffect s i t :=
  Host.Outcome.next.inj h ▸ .error hk

/-- An input instruction that raises a run-time error ends as the relation says. -/
theorem InstrEffect.of_raiseInput {i : Instr} {k : ErrKind} {s t : State} (hi : takesInput i) (hk : isRunKind k)
    (h : raiseInput k s = .next t) : InstrEffect s i t :=
  Host.Outcome.next.inj h ▸ .errorOnInput hi hk

/-- A push ends as the relation says, when its success does. -/
theorem InstrEffect.of_pushWord {i : Instr} {v : Word} {s t : State} (h : pushWord v s = .next t)
    (hok : hasRoom s.cfg.stackCap s.S.length → InstrEffect s i (advance { s with S := s.S ++ [v] })) :
    InstrEffect s i t := by
  rcases pushWord_next h with ⟨hroom, rfl⟩ | ⟨_, rfl⟩
  · exact hok hroom
  · exact .error (by decide)

/-- A binary operation ends as the relation says, when its success does. -/
theorem InstrEffect.of_binary {i : Instr} {f : Int → Int → Word} {s t : State} (h : binary f s = .next t)
    (hok : ∀ {below a b}, s.S = below ++ [a, b] → InstrEffect s i (advance { s with S := below ++ [f a b] })) :
    InstrEffect s i t := by
  rcases binary_next h with ⟨_, _, _, hS, rfl⟩ | ⟨_, rfl⟩
  · exact hok hS
  · exact .error (by decide)

/-- A division ends as the relation says, when its success does. -/
theorem InstrEffect.of_dividing {i : Instr} {f : Int → Int → Word} {s t : State} (h : dividing f s = .next t)
    (hok : ∀ {below a b}, s.S = below ++ [a, b] → b ≠ 0 →
      InstrEffect s i (advance { s with S := below ++ [f a b] })) : InstrEffect s i t := by
  rcases dividing_next h with ⟨_, _, _, hS, hb, rfl⟩ | ⟨_, _, _, rfl⟩ | ⟨_, rfl⟩
  · exact hok hS hb
  · exact .error (by decide)
  · exact .error (by decide)

/-- A conditional jump ends as the relation says, when the jump taken and the jump not taken do. -/
theorem InstrEffect.of_jumpIf {i : Instr} {test : Int → Bool} {l : Int} {s t : State} (h : jumpIf test l s = .next t)
    (htaken : ∀ {below x j}, s.S = below ++ [x] → test x = true → IntMap.get? s.LT l = some j →
      InstrEffect s i { s with S := below, pc := j })
    (hnot : ∀ {below x}, s.S = below ++ [x] → test x = false → InstrEffect s i (advance { s with S := below })) :
    InstrEffect s i t := by
  rcases jumpIf_next h with ⟨_, _, _, hS, hx, hl, rfl⟩ | ⟨_, _, hS, hx, rfl⟩ | ⟨_, _, _, _, _, rfl⟩ | ⟨_, rfl⟩
  · exact htaken hS hx hl
  · exact hnot hS hx
  · exact .error (by decide)
  · exact .error (by decide)

/-- An output ends as the relation says, when its success does. -/
theorem InstrEffect.of_output {i : Instr} {text : Int → List Int} {s t : State} (h : output text s = .next t)
    (hok : ∀ {below v}, s.S = below ++ [v] → InstrEffect s i (advance (emit (text v) { s with S := below }))) :
    InstrEffect s i t := by
  rcases output_next h with ⟨_, _, hS, rfl⟩ | ⟨_, rfl⟩
  · exact hok hS
  · exact .error (by decide)

/-- The store of an input instruction ends as the relation says, when its success does. -/
theorem InstrEffect.of_storeInput {i : Instr} {v : Word} {rest : List Nat} {s t : State} (hi : takesInput i)
    (h : storeInput v rest s = .next t)
    (hok : ∀ {below a H}, s.S = below ++ [a] → memWrite s.cfg s.H a v = some H →
      InstrEffect s i (advance { s with S := below, H := H, IN := { s.IN with chars := rest } })) :
    InstrEffect s i t := by
  rcases storeInput_next h with ⟨_, _, _, hS, hH, rfl⟩ | ⟨_, _, _, _, rfl⟩ | ⟨_, rfl⟩
  · exact hok hS hH
  · exact .errorOnInput hi (by decide)
  · exact .errorOnInput hi (by decide)

theorem execCopy_effect {n : Int} {s t : State} (h : execCopy n s = .next t) : InstrEffect s (.copy n) t := by
  unfold execCopy at h
  split_ifs at h with hn
  · exact .of_raise (by decide) h
  · split at h
    · exact .of_raise (by decide) h
    · obtain ⟨below, above, hS, hlen⟩ := atDepth_eq_some ‹_›
      obtain rfl : n = above.length := by omega
      exact .of_pushWord h (.copy hS)

theorem execDuplicate_effect {s t : State} (h : execDuplicate s = .next t) : InstrEffect s .duplicate t := by
  unfold execDuplicate at h
  split at h
  · exact .of_raise (by decide) h
  · obtain ⟨below, above, hS, hlen⟩ := atDepth_eq_some ‹_›
    obtain rfl := List.length_eq_zero_iff.mp hlen
    exact .of_pushWord h (.duplicate hS)

theorem execSwap_effect {s t : State} (h : execSwap s = .next t) : InstrEffect s .swap t := by
  unfold execSwap at h
  split at h
  · exact .of_raise (by decide) h
  · cases h
    exact .swap (pop2_eq_some.mp ‹_›)

theorem execDiscard_effect {s t : State} (h : execDiscard s = .next t) : InstrEffect s .discard t := by
  unfold execDiscard at h
  split at h
  · exact .of_raise (by decide) h
  · cases h
    exact .discard (pop1_eq_some.mp ‹_›)

theorem execSlide_effect {n : Int} {s t : State} (h : execSlide n s = .next t) : InstrEffect s (.slide n) t := by
  unfold execSlide at h
  split_ifs at h with hn
  · exact .of_raise (by decide) h
  · split at h
    · exact .of_raise (by decide) h
    · cases h
      obtain ⟨below, mid, v, hS, hlen, rfl⟩ := slideBy_eq_some ‹_›
      obtain rfl : n = mid.length := by omega
      exact .slide hS

theorem execStore_effect {s t : State} (h : execStore s = .next t) : InstrEffect s .store t := by
  unfold execStore at h
  split at h
  · exact .of_raise (by decide) h
  · split at h
    · exact .of_raise (by decide) h
    · cases h
      exact .store (pop2_eq_some.mp ‹_›) ‹_›

theorem execRetrieve_effect {s t : State} (h : execRetrieve s = .next t) : InstrEffect s .retrieve t := by
  unfold execRetrieve at h
  split at h
  · exact .of_raise (by decide) h
  · split at h
    · exact .of_raise (by decide) h
    · cases h
      exact .retrieve (pop1_eq_some.mp ‹_›) ‹_›

theorem execCall_effect {l : Int} {s t : State} (h : execCall l s = .next t) : InstrEffect s (.call l) t := by
  unfold execCall at h
  split_ifs at h with hcap
  · exact .of_raise (by decide) h
  · split at h
    · exact .of_raise (by decide) h
    · cases h
      exact .call (atCap_eq_false.mp (Bool.eq_false_iff.mpr hcap)) ‹_›

theorem execJump_effect {l : Int} {s t : State} (h : execJump l s = .next t) : InstrEffect s (.jump l) t := by
  unfold execJump at h
  split at h
  · exact .of_raise (by decide) h
  · cases h
    exact .jump ‹_›

theorem execRet_effect {s t : State} (h : execRet s = .next t) : InstrEffect s .ret t := by
  unfold execRet at h
  split at h
  · exact .of_raise (by decide) h
  · cases h
    exact .ret (pop1_eq_some.mp ‹_›)

theorem execInChar_effect {s t : State} (h : execInChar s = .next t) : InstrEffect s .inChar t := by
  unfold execInChar at h
  split at h
  · split_ifs at h
    · exact .of_raiseInput (.inl rfl) (by decide) h
    · cases h
      exact .hold (.inl rfl)
  · exact .of_storeInput (.inl rfl) h (.inChar ‹_›)

theorem execInNum_effect {s t : State} (h : execInNum s = .next t) : InstrEffect s .inNum t := by
  unfold execInNum at h
  split at h
  · split_ifs at h
    · exact .of_raiseInput (.inr rfl) (by decide) h
    · cases h
      exact .hold (.inr rfl)
  · split at h
    · exact .of_raiseInput (.inr rfl) (by decide) h
    · split_ifs at h with hw
      · exact .of_storeInput (.inr rfl) h (.inNum (splitLine_eq_some ‹_›).1 ‹_› hw)
      · exact .of_raiseInput (.inr rfl) (by decide) h

/-- Whatever next state an instruction answers, it is one of the ways it can end. -/
theorem exec_effect {i : Instr} {s t : State} (h : exec i s = .next t) : InstrEffect s i t := by
  cases i with
  | push n => exact .of_pushWord h .push
  | duplicate => exact execDuplicate_effect h
  | copy n => exact execCopy_effect h
  | swap => exact execSwap_effect h
  | discard => exact execDiscard_effect h
  | slide n => exact execSlide_effect h
  | add => exact .of_binary h .add
  | sub => exact .of_binary h .sub
  | mul => exact .of_binary h .mul
  | div => exact .of_dividing h .div
  | mod => exact .of_dividing h .mod
  | store => exact execStore_effect h
  | retrieve => exact execRetrieve_effect h
  | mark l =>
    cases h
    exact .mark
  | call l => exact execCall_effect h
  | jump l => exact execJump_effect h
  | jumpIfZero l => exact .of_jumpIf h .jumpIfZero .noJumpIfZero
  | jumpIfNegative l => exact .of_jumpIf h .jumpIfNegative .noJumpIfNegative
  | ret => exact execRet_effect h
  | endProg =>
    cases h
    exact .endProg
  | outChar => exact .of_output h .outChar
  | outNum => exact .of_output h .outNum
  | inChar => exact execInChar_effect h
  | inNum => exact execInNum_effect h

/-! ### Host events and steps -/

/-- The ways a host event can end in a state `s`. -/
inductive EventEffect (s : State) : HostEvent → State → Prop
  | ignored {e} (he : e ≠ .reset) : EventEffect s e s
  | byte {b f} (hp : s.phase = .decode) (hf : s.front.byte s.cfg b = .ok f) :
      EventEffect s (.byte b) (s.withFront f)
  | badByte {b k} (hp : s.phase = .decode) (hk : isDecodeKind k) :
      EventEffect s (.byte b) (decodeError k s.D.offset { s with D := (s.D.take s.cfg b).1 })
  | eof (hp : s.phase = .decode) (hD : s.D.atBoundary = true) : EventEffect s .eof { s with phase := .ready }
  | badEof (hp : s.phase = .decode) (hD : s.D.atBoundary = false) :
      EventEffect s .eof (decodeError .unexpectedEOF s.D.offset s)
  | start (hp : s.phase = .ready) : EventEffect s .start { s with phase := .run }
  | reset : EventEffect s .reset { State.resetWith s.cfg with inbox := s.inbox, freeDraws := s.freeDraws }
  | inputChar {ch : Nat} (hp : s.phase.isOver = false) (hopen : s.IN.ended = false)
      (hch : (ch : Int) < halfRange s.cfg.W) :
      EventEffect s (.inputChar ch) { s with IN := { chars := s.IN.chars ++ [ch], ended := false } }
  | inputEnd (hp : s.phase.isOver = false) :
      EventEffect s .inputEnd { s with IN := { s.IN with ended := true } }

theorem hostByte_effect {b : Byte} {s t : State} (h : hostByte b s = .next t) : EventEffect s (.byte b) t := by
  unfold hostByte at h
  split_ifs at h with hp
  · rcases takeFront_next h with ⟨f, hf, rfl⟩ | ⟨k, off, f, hf, rfl⟩
    · exact .byte hp hf
    · obtain ⟨rfl, hk, rfl⟩ := byte_error hf
      exact .badByte hp hk
  · cases h
    exact .ignored (by simp)

theorem hostEof_effect {s t : State} (h : hostEof s = .next t) : EventEffect s .eof t := by
  unfold hostEof Front.eof at h
  split_ifs at h with hp hD
  · cases h
    exact .eof hp hD
  · cases h
    exact .badEof hp (Bool.eq_false_iff.mpr hD)
  · cases h
    exact .ignored (by simp)

/-- Whatever next state a host event answers, it is one of the ways it can end. -/
theorem hostEvent_effect {e : HostEvent} {s t : State} (h : hostEvent e s = .next t) : EventEffect s e t := by
  cases e with
  | byte b => exact hostByte_effect h
  | eof => exact hostEof_effect h
  | start =>
    simp only [hostEvent, hostStart] at h
    split_ifs at h with hp <;> cases h
    · exact .start hp
    · exact .ignored (by simp)
  | reset =>
    cases h
    exact .reset
  | inputChar ch =>
    rcases hostInputChar_next h with ⟨_, rfl⟩ | ⟨hp, hopen, hch, rfl⟩
    · exact .ignored (by simp)
    · exact .inputChar hp hopen hch
  | inputEnd =>
    simp only [hostEvent, hostInputEnd] at h
    split_ifs at h with hp <;> cases h
    · exact .ignored (by simp)
    · exact .inputEnd (Bool.eq_false_iff.mpr hp)

/-- To keep a predicate, a step has to keep it over the taking of an event from the queue, the event itself, the
instruction at `pc`, and the end of the run past the last instruction. -/
theorem step_keeps {J : State → Prop} (hinbox : ∀ s l, J s → J { s with inbox := l })
    (hevent : ∀ {s e t}, EventEffect s e t → J s → J t)
    (hinstr : ∀ {s i t}, s.phase = .run → s.P[s.pc]? = some i → InstrEffect s i t → J s → J t)
    (hfinish : ∀ {s}, s.phase = .run → J s → J (finish s)) {s t : State} (hs : J s) (h : step s = .next t) : J t := by
  unfold step at h
  split at h
  · exact hevent (hostEvent_effect h) (hinbox _ _ hs)
  · split_ifs at h with hp
    · unfold vmStep fetch at h
      split at h
      · cases h
        exact hfinish hp hs
      · exact hinstr hp ‹_› (exec_effect h) hs
    · cases h
      exact hs

end Sys2Proof.Machine
end

