-- ==== Sys2Proof/Proofs/Frame.lean ====
section
/-! PROOFS. The frame of the instructions, a field at a time: over the ways an instruction can end, a field is as it was
but for the ways that are named. -/

namespace Sys2Proof.Machine

section
variable {s t : State} {i : Instr}

/-- What no instruction changes. -/
theorem InstrEffect.fixed (he : InstrEffect s i t) :
    t.cfg = s.cfg ∧ t.inbox = s.inbox ∧ t.D = s.D ∧ t.P = s.P ∧ t.LT = s.LT := by
  cases he <;> exact ⟨rfl, rfl, rfl, rfl, rfl⟩

theorem InstrEffect.calls_eq (he : InstrEffect s i t) (hi : i.opcode ∉ [Opcode.call, .ret]) : t.C = s.C := by
  cases he with
  | call | ret => simp [Instr.opcode] at hi
  | _ => rfl

theorem InstrEffect.output_eq (he : InstrEffect s i t) (hi : i.opcode ∉ [Opcode.outChar, .outNum]) :
    t.OUT = s.OUT := by
  cases he with
  | outChar | outNum => simp [Instr.opcode] at hi
  | _ => rfl

theorem opcode_of_takesInput (hi : takesInput i) : i.opcode ∈ [Opcode.inChar, .inNum] := by
  rcases hi with rfl | rfl <;> decide

theorem InstrEffect.input_eq (he : InstrEffect s i t) (hi : i.opcode ∉ [Opcode.inChar, .inNum]) :
    t.IN = s.IN ∧ t.freeDraws = s.freeDraws := by
  cases he with
  | inChar | inNum => simp [Instr.opcode] at hi
  | errorOnInput hin => exact absurd (opcode_of_takesInput hin) hi
  | _ => exact ⟨rfl, rfl⟩

theorem InstrEffect.stack_eq (he : InstrEffect s i t) (hi : i.opcode ∈ [Opcode.mark, .call, .jump, .ret, .endProg]) :
    t.S = s.S := by
  cases he with
  | mark | call | jump | ret | endProg | error | errorOnInput | hold => rfl
  | _ => simp [Instr.opcode] at hi

/-- The status registers change only by `End` or by the entry on an error. -/
theorem InstrEffect.status (he : InstrEffect s i t) :
    (t.phase = s.phase ∧ t.err = s.err ∧ t.errpos = s.errpos ∧ t.exit = s.exit) ∨
      (i = .endProg ∧ t = { s with phase := .done, exit := some s.cfg.exitOk }) ∨
      (∃ k, t = runError k s) ∨
      (i.opcode ∈ [Opcode.inChar, .inNum] ∧ ∃ k, t = inputError k s) := by
  cases he with
  | endProg => exact .inr (.inl ⟨rfl, rfl⟩)
  | error => exact .inr (.inr (.inl ⟨_, rfl⟩))
  | errorOnInput hin => exact .inr (.inr (.inr ⟨opcode_of_takesInput hin, _, rfl⟩))
  | _ => exact .inl ⟨rfl, rfl, rfl, rfl⟩

/-- An instruction that is no transfer of control advances, enters an error or holds. -/
theorem InstrEffect.advances (he : InstrEffect s i t)
    (hi : i.opcode ∉ [Opcode.call, .jump, .jumpIfZero, .jumpIfNegative, .ret, .endProg]) :
    t.pc = s.pc + 1 ∨ (∃ k, t = runError k s) ∨
      (i.opcode ∈ [Opcode.inChar, .inNum] ∧ (t = s ∨ ∃ k, t = inputError k s)) := by
  cases he with
  | call | jump | jumpIfZero | jumpIfNegative | ret | endProg => simp [Instr.opcode] at hi
  | error => exact .inr (.inl ⟨_, rfl⟩)
  | errorOnInput hin => exact .inr (.inr ⟨opcode_of_takesInput hin, .inr ⟨_, rfl⟩⟩)
  | hold hin => exact .inr (.inr ⟨opcode_of_takesInput hin, .inl rfl⟩)
  | _ => exact .inl rfl

end

/-- Settles O57: a case split over the ways an instruction can end, a field at a time. -/
theorem frameOfEveryInstruction : Obligations.FrameOfEveryInstruction := by
  intro i s t h
  have he := exec_effect h
  obtain ⟨hcfg, hinbox, hD, hP, hLT⟩ := he.fixed
  exact ⟨hcfg, hinbox, hD, hP, hLT, he.calls_eq, he.output_eq, he.input_eq, he.stack_eq, he.status, he.advances⟩

end Sys2Proof.Machine
end

