-- ==== Sys2Proof/Proofs/Invariant.lean ====
section
/-! PROOFS. The reset state meets the invariant and every step keeps it. Each part of the invariant is kept by the
instructions, by the host events and by the end of the run past the last instruction; `step_keeps` puts them together. -/

namespace Sys2Proof.Machine

/-! ### The decoder's part -/

/-- Between instructions the decoder's part holds in every phase. -/
theorem DecoderInv.of_boundary {s t : State} (h : DecoderInv s) (hb : s.D.atBoundary = true) (hc : t.cfg = s.cfg)
    (hD : t.D = s.D) : DecoderInv t :=
  ⟨by rw [hc, hD]; exact h.reachable, fun _ => by rw [hD]; exact hb⟩

/-- While decoding, or after a decode error, only the decoder's state counts. -/
theorem DecoderInv.of_undecoded {s : State} (hr : decoderReachable s.cfg s.D)
    (hp : s.phase = .decode ∨ s.phase = .decodeErr) : DecoderInv s :=
  ⟨hr, fun h => by rcases hp with hp | hp <;> simp [hp] at h⟩

theorem DecoderInv.congr {s t : State} (h : DecoderInv s) (hc : t.cfg = s.cfg) (hD : t.D = s.D)
    (hp : t.phase = s.phase) : DecoderInv t :=
  ⟨by rw [hc, hD]; exact h.reachable, by rw [hD, hp]; exact h.boundary⟩

theorem reset_reachable (c : Config) : decoderReachable c Decoder.reset :=
  ⟨fun _ => rfl, rfl, .inl rfl, rfl, rfl, rfl, rfl⟩

/-- What a byte without an error does to the decoder and the program: it is no symbol, or the decoder goes on, or an
instruction is completed (31_decoder_fsm R121). -/
theorem byte_ok {c : Config} {f g : Front} {b : Byte} (h : f.byte c b = .ok g) :
    g = { f with D := (f.D.take c b).1 } ∨
      (∃ x d, (f.D.take c b).1.symbol c x = .goOn d ∧ g = { f with D := d }) ∨
      (∃ x i, (f.D.take c b).1.symbol c x = .complete i ∧ f.capacityError c i = none ∧
        g = Front.append { f with D := (f.D.take c b).1 } i) := by
  unfold Front.byte at h
  dsimp only at h
  split at h
  · cases h
    exact .inl rfl
  · split at h
    · cases h
      exact .inr (.inl ⟨_, _, ‹_›, rfl⟩)
    · unfold Front.complete at h
      split at h
      · cases h
      · cases h
        exact .inr (.inr ⟨_, _, ‹_›, ‹_›, rfl⟩)
    · cases h
    · cases h

/-- A byte keeps the decoder in the states of 31_decoder_fsm R147. -/
theorem byte_reachable {c : Config} {f g : Front} {b : Byte} (hr : decoderReachable c f.D) (h : f.byte c b = .ok g) :
    decoderReachable c g.D := by
  have htake := take_reachable b hr
  rcases byte_ok h with rfl | ⟨x, d, hd, rfl⟩ | ⟨x, i, _, _, rfl⟩
  · exact htake
  · exact symbol_reachable htake hd
  · exact restart_reachable htake

/-- A host event keeps the decoder's part. -/
theorem EventEffect.decoderInv {s t : State} {e : HostEvent} (he : EventEffect s e t) (h : DecoderInv s) :
    DecoderInv t := by
  cases he with
  | ignored _ => exact h
  | byte hp hf => exact .of_undecoded (byte_reachable (f := s.front) h.reachable hf) (.inl hp)
  | @badByte b _ hp hk => exact .of_undecoded (take_reachable b h.reachable) (.inr rfl)
  | eof _ hD => exact h.of_boundary hD rfl rfl
  | badEof _ _ => exact .of_undecoded h.reachable (.inr rfl)
  | start hp => exact h.of_boundary (h.boundary (.inl hp)) rfl rfl
  | reset => exact .of_undecoded (reset_reachable _) (.inl rfl)
  | inputChar _ _ _ | inputEnd _ => exact h.congr rfl rfl rfl

/-! ### The program -/

theorem ProgramInv.congr {s t : State} (h : ProgramInv s) (hc : t.cfg = s.cfg) (hP : t.P = s.P) (hL : t.LT = s.LT) :
    ProgramInv t where
  labelsCanonical := by rw [hL]; exact h.labelsCanonical
  labels := by rw [hL, hP]; exact h.labels
  operands := by rw [hc, hP]; exact h.operands
  programCap := by rw [hc, hP]; exact h.programCap
  labelCap := by rw [hc, hL]; exact h.labelCap

/-- A label names an instruction of the program. -/
theorem ProgramInv.label_lt {s : State} (h : ProgramInv s) {l : Int} {j : Nat} (hl : IntMap.get? s.LT l = some j) :
    j < s.P.length := by
  rw [h.labels] at hl
  simpa using lastMarkFrom_lt hl

/-- With no capacity error there is room for the instruction, and for its label where that is new. -/
theorem hasRoom_of_capacityError {c : Config} {f : Front} {i : Instr} (h : f.capacityError c i = none) :
    hasRoom c.progCap f.P.length ∧
      ∀ l, i.markLabel? = some l → IntMap.get? f.LT l = none → hasRoom c.labelCap f.LT.length := by
  unfold Front.capacityError at h
  split_ifs at h with hprog
  refine ⟨atCap_eq_false.mp (Bool.eq_false_iff.mpr hprog), fun l hl hnew => ?_⟩
  simp only [hl, hnew, Option.isNone_none, Bool.true_and] at h
  exact atCap_eq_false.mp (Bool.eq_false_iff.mpr fun hcap => by simp [hcap] at h)

theorem append_LT_wf {f : Front} (h : IntMap.wf f.LT) (i : Instr) : IntMap.wf (f.append i).LT := by
  unfold Front.append
  split
  · exact h
  · exact IntMap.wf_set h _ _

/-- A bound on the label table is kept where a new label has room; a known label takes none. -/
theorem append_LT_length_le {f : Front} {i : Instr} {k : Nat} (hwf : IntMap.wf f.LT) (hk : f.LT.length ≤ k)
    (hnew : ∀ l, i.markLabel? = some l → IntMap.get? f.LT l = none → f.LT.length < k) :
    (f.append i).LT.length ≤ k := by
  unfold Front.append
  split
  · exact hk
  · rename_i l hl
    by_cases hl' : IntMap.get? f.LT l = none
    · have := hnew l hl hl'
      rw [IntMap.length_set_new hl']
      omega
    · rw [IntMap.length_set_old hwf hl']
      exact hk

theorem resetWith_programInv (c : Config) : ProgramInv (State.resetWith c) := by
  constructor <;> simp [IntMap.wf, lastMark, lastMarkFrom]

/-- Completing an instruction keeps the program's part. -/
theorem ProgramInv.append {s : State} (h : ProgramInv s) {i : Instr} (hi : i.wf s.cfg)
    (hcap : s.front.capacityError s.cfg i = none) (d : Decoder) :
    ProgramInv (s.withFront (Front.append { s.front with D := d } i)) := by
  obtain ⟨hprog, hlabel⟩ := hasRoom_of_capacityError hcap
  refine ⟨append_LT_wf h.labelsCanonical i, fun l => ?_, fun j hj => ?_, fun k hk => ?_, fun k hk => ?_⟩
  · rw [withFront_LT, append_get?, withFront_P, lastMark]
    refine Eq.trans ?_ (lastMarkFrom_append 0 s.P i l).symm
    rw [Nat.zero_add]
    exact congrArg (ite _ _) (h.labels l)
  · rcases List.mem_append.mp hj with hj | hj
    · exact h.operands j hj
    · exact List.mem_singleton.mp hj ▸ hi
  · have hlt : s.P.length < k := hprog k hk
    show (s.P ++ [i]).length ≤ k
    simpa using hlt
  · exact append_LT_length_le h.labelsCanonical (h.labelCap k hk) fun l hl hnew => hlabel l hl hnew k hk

/-- A byte keeps the program's part. -/
theorem ProgramInv.byte {s : State} (h : ProgramInv s) (hr : decoderReachable s.cfg s.D) {b : Byte} {f : Front}
    (hf : s.front.byte s.cfg b = .ok f) : ProgramInv (s.withFront f) := by
  rcases byte_ok hf with rfl | ⟨x, d, _, rfl⟩ | ⟨x, i, hi, hcap, rfl⟩
  · exact h.congr rfl rfl rfl
  · exact h.congr rfl rfl rfl
  · exact h.append (symbol_complete_wf (take_reachable b hr) hi) hcap _

/-- A byte never shortens the program. -/
theorem byte_length_le {c : Config} {f g : Front} {b : Byte} (h : f.byte c b = .ok g) : f.P.length ≤ g.P.length := by
  rcases byte_ok h with rfl | ⟨x, d, _, rfl⟩ | ⟨x, i, _, _, rfl⟩
  · exact le_rfl
  · exact le_rfl
  · simp [Front.append]

/-- A host event keeps the program's part. -/
theorem EventEffect.programInv {s t : State} {e : HostEvent} (he : EventEffect s e t)
    (hr : decoderReachable s.cfg s.D) (h : ProgramInv s) : ProgramInv t := by
  cases he with
  | byte _ hf => exact h.byte hr hf
  | reset => exact (resetWith_programInv s.cfg).congr rfl rfl rfl
  | _ => exact h.congr rfl rfl rfl

/-! ### The data -/

section
variable {s : State}

/-- Both parts of the operand stack hold words. -/
theorem DataInv.words_of_append (h : DataInv s) {below above : List Int} (hS : s.S = below ++ above) :
    (∀ v ∈ below, isWord s.cfg.W v) ∧ ∀ v ∈ above, isWord s.cfg.W v :=
  List.forall_mem_append.mp (hS ▸ h.stackWords)

/-- A stack of words that is no longer than the one before, and a program counter in range. -/
theorem DataInv.setStack (h : DataInv s) {q : List Int} {j : Nat} (hq : ∀ v ∈ q, isWord s.cfg.W v)
    (hlen : q.length ≤ s.S.length) (hj : j ≤ s.P.length) : DataInv { s with S := q, pc := j } :=
  { h with
    stackWords := hq
    pcInRange := hj
    stackCap := fun k hk => hlen.trans (h.stackCap k hk) }

/-- The elements above `below` are popped and words pushed in their place, no more than were popped. -/
theorem DataInv.replaceTop (h : DataInv s) {below above new : List Int} {j : Nat} (hS : s.S = below ++ above)
    (hnew : ∀ v ∈ new, isWord s.cfg.W v) (hlen : new.length ≤ above.length) (hj : j ≤ s.P.length) :
    DataInv { s with S := below ++ new, pc := j } :=
  h.setStack (List.forall_mem_append.mpr ⟨(h.words_of_append hS).1, hnew⟩) (by simp [hS, hlen]) hj

/-- The elements above `below` are popped. -/
theorem DataInv.pop (h : DataInv s) {below above : List Int} {j : Nat} (hS : s.S = below ++ above)
    (hj : j ≤ s.P.length) : DataInv { s with S := below, pc := j } :=
  h.setStack (h.words_of_append hS).1 (by simp [hS]) hj

/-- A word pushed where there is room. -/
theorem DataInv.push (h : DataInv s) {v : Int} {j : Nat} (hv : isWord s.cfg.W v)
    (hroom : hasRoom s.cfg.stackCap s.S.length) (hj : j ≤ s.P.length) :
    DataInv { s with S := s.S ++ [v], pc := j } :=
  { h with
    stackWords := List.forall_mem_append.mpr ⟨h.stackWords, by simpa using hv⟩
    pcInRange := hj
    stackCap := fun k hk => by simpa using hroom k hk }

/-- A heap write of a word at a word keeps the heap's part, `HEAP_CAP` included. -/
theorem DataInv.writeHeap (h : DataInv s) {a v : Int} {H : Memory} (hH : memWrite s.cfg s.H a v = some H)
    (ha : isWord s.cfg.W a) (hv : isWord s.cfg.W v) : DataInv { s with H := H } := by
  obtain ⟨hroom, rfl⟩ := memWrite_eq_some.mp hH
  refine { h with
    heapWords := fun p hp => ?_
    heapCanonical := memWrite_wf hH h.heapCanonical
    heapCap := fun k hk => ?_ }
  · rcases IntMap.mem_set hp with rfl | hp
    · exact ⟨ha, hv⟩
    · exact h.heapWords p hp
  · show (IntMap.set s.H a v).length ≤ k
    by_cases hnew : IntMap.get? s.H a = none
    · have hlt : s.H.length < k := hroom.resolve_left (by simp [hnew]) k hk
      rw [IntMap.length_set_new hnew]
      omega
    · rw [IntMap.length_set_old h.heapCanonical hnew]
      exact h.heapCap k hk

/-- What the heap answers is a word. -/
theorem DataInv.read_isWord (h : DataInv s) {a v : Int} (hv : memRead s.cfg s.H a = some v) : isWord s.cfg.W v := by
  unfold memRead at hv
  split at hv
  · cases hv
    exact (h.heapWords _ (IntMap.mem_of_get? ‹_›)).2
  · split at hv
    · cases hv
    · cases hv
      exact isWord_zero _

/-- A runtime input of characters; after a run-time error any input will do. -/
theorem DataInv.setInput (h : DataInv s) {cs : List Nat} {e : Bool}
    (hcs : s.phase ≠ .runErr → ∀ ch ∈ cs, (ch : Int) < halfRange s.cfg.W) :
    DataInv { s with IN := { chars := cs, ended := e } } :=
  { h with inputChars := hcs }

/-- The popped return address and those below it are in range. -/
theorem DataInv.returns_of_append (h : DataInv s) {below : List Nat} {r : Nat} (hC : s.C = below ++ [r]) :
    (∀ x ∈ below, 1 ≤ x ∧ x ≤ s.P.length) ∧ r ≤ s.P.length := by
  obtain ⟨hbelow, hr⟩ := List.forall_mem_append.mp (hC ▸ h.returnsInRange)
  exact ⟨hbelow, (hr r (by simp)).2⟩

/-- A character code delivered as runtime input is a word. -/
theorem isWord_of_char {W ch : Nat} (h : (ch : Int) < halfRange W) : isWord W (ch : Int) := by
  have := halfRange_pos W
  rw [isWord_iff]
  omega

/-- An instruction of the program keeps the data's part. -/
theorem InstrEffect.dataInv {i : Instr} {t : State} (he : InstrEffect s i t) (hp : s.phase = .run)
    (hi : s.P[s.pc]? = some i) (hP : ProgramInv s) (h : DataInv s) : DataInv t := by
  obtain ⟨hpc, hmem⟩ := List.getElem?_eq_some_iff.mp hi
  have hwf : i.wf s.cfg := hP.operands i (hmem ▸ List.getElem_mem hpc)
  have hnext : s.pc + 1 ≤ s.P.length := hpc
  have hchars := h.inputChars (by simp [hp])
  cases he with
  | push hroom => exact h.push (hwf.1 _ rfl) hroom hnext
  | duplicate hS hroom | copy hS hroom => exact h.push ((h.words_of_append hS).2 _ (by simp)) hroom hnext
  | swap hS =>
    have hw := (h.words_of_append hS).2
    exact h.replaceTop hS (by simpa [and_comm] using hw) le_rfl hnext
  | slide hS =>
    rw [List.append_assoc] at hS
    exact h.replaceTop hS (fun v hv => (h.words_of_append hS).2 v (List.mem_append_right _ hv)) (by simp) hnext
  | add hS | sub hS | mul hS | div hS _ => exact h.replaceTop hS (by simpa using wrap_isWord _ _) (by simp) hnext
  | @mod _ a b hS hb =>
    have hw := remainder_isWord s.cfg.divmod a ((h.words_of_append hS).2 b (by simp)) hb
    exact h.replaceTop hS (by simpa using hw) (by simp) hnext
  | store hS hH =>
    have hw := (h.words_of_append hS).2
    exact (h.writeHeap hH (hw _ (by simp)) (hw _ (by simp))).pop hS hnext
  | retrieve hS hv => exact h.replaceTop hS (by simpa using h.read_isWord hv) (by simp) hnext
  | mark => exact { h with pcInRange := hnext }
  | call hroom hl =>
    exact { h with
      pcInRange := (hP.label_lt hl).le
      returnsInRange := List.forall_mem_append.mpr ⟨h.returnsInRange, by simpa using hpc⟩
      callCap := fun k hk => by simpa using hroom k hk }
  | jump hl => exact { h with pcInRange := (hP.label_lt hl).le }
  | jumpIfZero hS _ hl | jumpIfNegative hS _ hl => exact h.pop hS (hP.label_lt hl).le
  | discard hS | noJumpIfZero hS _ | noJumpIfNegative hS _ => exact h.pop hS hnext
  | ret hC =>
    obtain ⟨hbelow, hr⟩ := h.returns_of_append hC
    have hlen := congrArg List.length hC
    rw [List.length_append] at hlen
    exact { h with
      pcInRange := hr
      returnsInRange := hbelow
      callCap := fun k hk => (Nat.le_add_right _ _).trans (hlen ▸ h.callCap k hk) }
  | endProg => exact { h with inputChars := fun _ => hchars }
  | outChar hS | outNum hS => exact { h.pop hS hnext with }
  | inChar hIN hS hH =>
    have hall := List.forall_mem_cons.mp (hIN ▸ hchars)
    have hw := h.writeHeap hH ((h.words_of_append hS).2 _ (by simp)) (isWord_of_char hall.1)
    exact (hw.setInput fun _ => hall.2).pop hS hnext
  | inNum hIN hn hword hS hH =>
    have hrest := (List.forall_mem_cons.mp (List.forall_mem_append.mp (hIN ▸ hchars)).2).2
    have hw := h.writeHeap hH ((h.words_of_append hS).2 _ (by simp)) hword
    exact (hw.setInput fun _ => hrest).pop hS hnext
  | error _ | errorOnInput _ _ => exact { h with inputChars := fun hne => absurd rfl hne }
  | hold _ => exact h

theorem resetWith_dataInv (c : Config) : DataInv (State.resetWith c) := by
  constructor <;> simp

/-- A host event keeps the data's part. -/
theorem EventEffect.dataInv {e : HostEvent} {t : State} (he : EventEffect s e t) (h : DataInv s) : DataInv t := by
  cases he with
  | ignored _ => exact h
  | byte hp hf =>
    have hlen := byte_length_le hf
    exact { h with
      pcInRange := h.pcInRange.trans hlen
      returnsInRange := fun r hr => ⟨(h.returnsInRange r hr).1, (h.returnsInRange r hr).2.trans hlen⟩ }
  | badByte hp _ | badEof hp _ | eof hp _ | start hp =>
    exact { h with inputChars := fun _ => h.inputChars (by simp [hp]) }
  | reset => exact { resetWith_dataInv s.cfg with }
  | inputChar _ _ hch =>
    exact h.setInput fun hp => List.forall_mem_append.mpr ⟨h.inputChars hp, by simpa using hch⟩
  | inputEnd _ => exact h.setInput h.inputChars

end

/-! ### The status registers -/

/-- Until the run is over the status registers are at their reset values. -/
theorem statusInv_iff_of_not_over {s : State} (hp : s.phase.isOver = false) :
    statusInv s ↔ s.err = .noError ∧ s.errpos = ErrPos.none ∧ s.exit = none := by
  unfold statusInv
  cases hs : s.phase <;> simp_all [Phase.isOver]

/-- An instruction run in `RUN` keeps the status part. -/
theorem InstrEffect.statusInv {s t : State} {i : Instr} (he : InstrEffect s i t) (hp : s.phase = .run)
    (h : statusInv s) : statusInv t := by
  have hlive : s.phase.isOver = false := by rw [hp]; rfl
  have hclear := (statusInv_iff_of_not_over hlive).mp h
  cases he with
  | endProg => exact ⟨hclear.1, hclear.2.1, rfl⟩
  | error hk | errorOnInput _ hk => exact ⟨hk, by simp [hclear, ErrPos.none], rfl⟩
  | _ => exact Iff.mpr (statusInv_iff_of_not_over hlive) hclear

/-- A host event keeps the status part. -/
theorem EventEffect.statusInv {s t : State} {e : HostEvent} (he : EventEffect s e t) (h : statusInv s) :
    statusInv t := by
  have hclear := fun hlive => (statusInv_iff_of_not_over (s := s) hlive).mp h
  cases he with
  | ignored _ => exact h
  | byte hp _ =>
    have hlive : s.phase.isOver = false := by rw [hp]; rfl
    exact Iff.mpr (statusInv_iff_of_not_over hlive) (hclear hlive)
  | badByte hp hk => exact ⟨hk, ⟨s.D.offset, by simp [hclear (by rw [hp]; rfl), ErrPos.none]⟩, rfl⟩
  | badEof hp _ =>
    have hk : isDecodeKind .unexpectedEOF := by decide
    exact ⟨hk, ⟨s.D.offset, by simp [hclear (by rw [hp]; rfl), ErrPos.none]⟩, rfl⟩
  | eof hp _ | start hp => exact hclear (by rw [hp]; rfl)
  | reset => exact ⟨rfl, rfl, rfl⟩
  | inputChar hp _ _ | inputEnd hp => exact Iff.mpr (statusInv_iff_of_not_over hp) (hclear hp)

/-! ### The machine before `start` -/

/-- After an instruction the machine is still running or the run is over. -/
theorem InstrEffect.notStarted {s t : State} {i : Instr} (he : InstrEffect s i t) (hp : s.phase = .run) :
    notStarted t := by
  rcases he.status with ⟨ht, _⟩ | ⟨_, rfl⟩ | ⟨k, rfl⟩ | ⟨_, k, rfl⟩
  · simp [Machine.notStarted, ht, hp]
  · simp [Machine.notStarted]
  · simp [Machine.notStarted]
  · simp [Machine.notStarted]

/-- A host event leaves the VM's state as it is until `start`. -/
theorem EventEffect.notStarted {s t : State} {e : HostEvent} (he : EventEffect s e t) (h : notStarted s) :
    notStarted t := by
  cases he with
  | ignored _ | byte _ _ | inputChar _ _ _ | inputEnd _ => exact h
  | badByte hp _ | badEof hp _ | eof hp _ => exact fun _ => h (.inl hp)
  | start hp => simp [Machine.notStarted]
  | reset => exact fun _ => ⟨rfl, rfl, rfl, rfl, rfl⟩

/-! ### The whole -/

theorem resetWith_inv (c : Config) : Inv (State.resetWith c) where
  decoder := .of_undecoded (reset_reachable c) (.inl rfl)
  program := resetWith_programInv c
  data := resetWith_dataInv c
  status := ⟨rfl, rfl, rfl⟩
  idle := fun _ => ⟨rfl, rfl, rfl, rfl, rfl⟩

/-- Settles O51: everything is empty or at zero, and the decoder is at a boundary. -/
theorem resetMeetsTheInvariant : Obligations.ResetMeetsTheInvariant :=
  ⟨resetWith_inv Config.standard, resetWith_inv⟩

/-- The invariant says nothing of the events that are waiting. -/
theorem Inv.setInbox {s : State} (h : Inv s) (l : List HostEvent) : Inv { s with inbox := l } where
  decoder := h.decoder.congr rfl rfl rfl
  program := h.program.congr rfl rfl rfl
  data := { h.data with }
  status := h.status
  idle := h.idle

theorem EventEffect.inv {s t : State} {e : HostEvent} (he : EventEffect s e t) (h : Inv s) : Inv t where
  decoder := he.decoderInv h.decoder
  program := he.programInv h.decoder.reachable h.program
  data := he.dataInv h.data
  status := he.statusInv h.status
  idle := he.notStarted h.idle

/-- An instruction of the program, run in `RUN`, keeps the invariant. -/
theorem InstrEffect.inv {s t : State} {i : Instr} (hp : s.phase = .run) (hi : s.P[s.pc]? = some i)
    (he : InstrEffect s i t) (h : Inv s) : Inv t := by
  obtain ⟨hcfg, _, hD, hP, hLT⟩ := he.fixed
  exact {
    decoder := h.decoder.of_boundary (h.decoder.boundary (.inr (.inl hp))) hcfg hD
    program := h.program.congr hcfg hP hLT
    data := he.dataInv hp hi h.program h.data
    status := he.statusInv hp h.status
    idle := he.notStarted hp }

/-- The end of the run past the last instruction keeps the invariant. -/
theorem finish_inv {s : State} (hp : s.phase = .run) (h : Inv s) : Inv (finish s) where
  decoder := h.decoder.of_boundary (h.decoder.boundary (.inr (.inl hp))) rfl rfl
  program := h.program.congr rfl rfl rfl
  data := { h.data with inputChars := fun _ => h.data.inputChars (by simp [hp]) }
  status := InstrEffect.endProg.statusInv hp h.status
  idle := InstrEffect.endProg.notStarted hp

/-- Settles O52: the events, the instructions and the end of the run each keep every part of the invariant. -/
theorem stepKeepsTheInvariant : Obligations.StepKeepsTheInvariant := fun _ _ hs h =>
  step_keeps (fun _ l h => h.setInbox l) EventEffect.inv InstrEffect.inv finish_inv hs h

end Sys2Proof.Machine
end

