-- ==== Sys2Proof/Proofs/HostEvents.lean ====
section
/-! PROOFS. What a host event does by phase: once the run is over only a reset does anything, and until then a delivery
of the runtime input extends `IN`. -/

namespace Sys2Proof.Machine

/-- A step takes the host event that waits. -/
theorem step_of_event {s : State} {e : HostEvent} {rest : List HostEvent} (h : s.inbox = e :: rest) :
    step s = hostEvent e { s with inbox := rest } := by
  simp only [step, h]

/-- With no host event waiting, nothing happens outside `RUN` (32_vm_cycle R160). -/
theorem step_of_idle {s : State} (h : s.inbox = []) (hp : s.phase ≠ .run) : step s = .next s := by
  simp only [step, h, if_neg hp]

/-- Once the run is over no host event but a reset does anything. -/
theorem hostEvent_of_isOver {e : HostEvent} {s : State} (ho : s.phase.isOver = true) (he : e ≠ .reset) :
    hostEvent e s = .next s := by
  have hdecode : s.phase ≠ .decode := fun hp => by simp [hp, Phase.isOver] at ho
  have hready : s.phase ≠ .ready := fun hp => by simp [hp, Phase.isOver] at ho
  cases e with
  | byte b => exact if_neg hdecode
  | eof => exact if_neg hdecode
  | start => exact if_neg hready
  | reset => exact absurd rfl he
  | inputChar ch => exact if_pos ho
  | inputEnd => exact if_pos ho

/-- Settles O32: by the event that waits, if any. -/
theorem onlyResetLeavesAFinalPhase : Obligations.OnlyResetLeavesAFinalPhase := by
  intro s hp
  have ho := (Phase.isOver_iff s.phase).mpr hp
  cases hi : s.inbox with
  | nil =>
    have hrun : s.phase ≠ .run := fun h => by simp [h, Phase.isOver] at ho
    refine ⟨fun _ => ?_, by simp⟩
    rw [step_of_idle hi hrun, List.tail_nil, ← hi]
  | cons e rest =>
    rw [step_of_event hi]
    refine ⟨fun he => hostEvent_of_isOver ho (by simpa using he), fun he => ?_⟩
    obtain rfl : e = .reset := by simpa using he
    exact ⟨_, rfl, rfl⟩

/-- Settles O34: the two deliveries, with the run not over and the stream open. -/
theorem deliveriesExtendTheInput : Obligations.DeliveriesExtendTheInput := by
  intro s rest hp hopen
  have ho : s.phase.isOver = false := by
    rcases hp with hp | hp | hp <;> rw [hp] <;> rfl
  refine ⟨fun ch hi hch => ?_, fun hi => ?_⟩
  · rw [step_of_event hi]
    simpa [hostEvent, hostInputChar, ho, hopen] using hch
  · rw [step_of_event hi]
    simp [hostEvent, hostInputEnd, ho]

end Sys2Proof.Machine
end

