-- ==== Sys2Proof/Proofs/Memory.lean ====
section
/-! PROOFS. The memories (20_memory): an instruction writes at most one heap cell, extends `OUT` at most and keeps the
stack below what it pops or rewrites, by the ways it can end; a step that is no reset does no more. -/

namespace Sys2Proof.Machine

/-! ### The heap -/

/-- `Store` with its operands on the stack and room in the heap (42_heap R220). -/
theorem exec_store_of_memWrite {s : State} {below : List Int} {a v : Int} {H : Memory} (hS : s.S = below ++ [a, v])
    (hH : memWrite s.cfg s.H a v = some H) : exec .store s = .next (advance { s with S := below, H := H }) := by
  simp only [exec, execStore, hS, pop2_append, hH]

/-- `Retrieve` with its operand on the stack and a cell that reads (42_heap R221). -/
theorem exec_retrieve_of_memRead {s : State} {below : List Int} {a v : Int} (hS : s.S = below ++ [a])
    (hv : memRead s.cfg s.H a = some v) : exec .retrieve s = .next (advance { s with S := below ++ [v] }) := by
  simp only [exec, execRetrieve, hS, pop1_append, hv]

/-- Settles O13: the heap after the `Store` is the heap before with one cell written. -/
theorem retrieveAfterStoreYieldsTheValue : Obligations.RetrieveAfterStoreYieldsTheValue := by
  intro s t below a v hS hroom h
  have hH : memWrite s.cfg s.H a v = some (IntMap.set s.H a v) := memWrite_eq_some.mpr ⟨hroom, rfl⟩
  rw [exec_store_of_memWrite hS hH] at h
  cases h
  refine ⟨fun x hx => ?_, fun u rest hu hS' => exec_retrieve_of_memRead hS' (memRead_written ?_)⟩
  · rw [advance_H, memWrite_get? hH, if_neg hx]
  · rw [hu, advance_H, memWrite_get? hH, if_pos rfl]

section
variable {s t : State} {i : Instr}

/-- An instruction leaves the heap as it is or makes one write, at the address `writesCell` names. -/
theorem InstrEffect.heap_eq_or_memWrite (he : InstrEffect s i t) :
    t.H = s.H ∨ ∃ a v, writesCell i s = some a ∧ memWrite s.cfg s.H a v = some t.H := by
  cases he with
  | store hS hH | inChar _ hS hH | inNum _ _ _ hS hH => exact .inr ⟨_, _, by simp [writesCell, hS], hH⟩
  | _ => exact .inl rfl

/-- No instruction unwrites a cell. -/
theorem InstrEffect.written_stays (he : InstrEffect s i t) {x : Int} (hx : IntMap.get? s.H x ≠ none) :
    IntMap.get? t.H x ≠ none := by
  rcases he.heap_eq_or_memWrite with hH | ⟨a, v, _, hH⟩
  · rwa [hH]
  · rw [memWrite_get? hH]
    split_ifs
    · simp
    · exact hx

end

/-- Settles O58: the one write an instruction makes is at the address `writesCell` names. -/
theorem heapFrame : Obligations.HeapFrame := by
  intro i s t h x hx
  rcases (exec_effect h).heap_eq_or_memWrite with hH | ⟨a, v, ha, hH⟩
  · rw [hH]
  · rw [memWrite_get? hH, if_neg]
    rintro rfl
    exact hx ha

/-! ### The operand stack -/

/-- What stands below the top `n` elements of `q` begins every `r` that keeps a part of `q` with at most `n` elements
above it. -/
theorem exists_eq_take_append {α : Type} {q r below above : List α} {n : Nat} (hq : q = below ++ above)
    (hn : above.length ≤ n) (hr : below <+: r) : ∃ top, r = q.take (q.length - n) ++ top := by
  have hlen : (q.take (q.length - n)).length ≤ below.length := by
    rw [List.length_take, hq, List.length_append]
    omega
  obtain ⟨top, htop⟩ := (List.prefix_of_prefix_length_le (List.take_prefix _ q) ⟨above, hq.symm⟩ hlen).trans hr
  exact ⟨top, htop.symm⟩

/-- `Slide` reads the elements it removes and the top (40_stack R186). -/
theorem stackReads_slide_natCast (n : Nat) : stackReads (.slide n) = n + 1 := by
  rw [stackReads, if_neg (Int.natCast_nonneg n).not_gt, Int.toNat_natCast]

/-- The stack after an instruction begins with what stood below the elements it pops or rewrites. -/
theorem InstrEffect.stack_eq_take_append {s t : State} {i : Instr} (he : InstrEffect s i t) :
    ∃ top, t.S = s.S.take (s.S.length - stackRewrites i) ++ top := by
  cases he with
  | push | duplicate | copy =>
    exact exists_eq_take_append (List.append_nil _).symm (Nat.zero_le _) (List.prefix_append _ _)
  | swap hS | add hS | sub hS | mul hS | div hS | mod hS | retrieve hS =>
    exact exists_eq_take_append hS le_rfl (List.prefix_append _ _)
  | discard hS | store hS | jumpIfZero hS | noJumpIfZero hS | jumpIfNegative hS | noJumpIfNegative hS
  | outChar hS | outNum hS | inChar _ hS | inNum _ _ _ hS =>
    exact exists_eq_take_append hS le_rfl List.prefix_rfl
  | slide hS =>
    rw [List.append_assoc] at hS
    exact exists_eq_take_append hS (by simp [stackRewrites, stackReads_slide_natCast]) (List.prefix_append _ _)
  | mark | call | jump | ret | endProg | error | errorOnInput | hold =>
    exact exists_eq_take_append (List.append_nil _).symm (Nat.zero_le _) List.prefix_rfl

/-- Settles O59: a case split over the ways an instruction can end. -/
theorem stackFrame : Obligations.StackFrame := fun _ _ _ h => (exec_effect h).stack_eq_take_append

/-! ### Steps -/

/-- No host event changes the parameters (10_state R45). -/
theorem EventEffect.cfg_eq {s t : State} {e : HostEvent} (he : EventEffect s e t) : t.cfg = s.cfg := by
  cases he <;> rfl

/-- No step, a reset included, changes the parameters (10_state R45). -/
theorem step_cfg_eq {s t : State} (h : step s = .next t) : t.cfg = s.cfg :=
  step_keeps (J := fun u => u.cfg = s.cfg) (fun _ _ hu => hu) (fun he hu => he.cfg_eq.trans hu)
    (fun _ _ he hu => he.fixed.1.trans hu) (fun _ hu => hu) rfl h

/-- Settles O54: but for a reset, only the decoder writes `P` and `LT`, and it steps in `DECODE` only. -/
theorem programIsImmutableOnceDecoded : Obligations.ProgramIsImmutableOnceDecoded := by
  intro s t h
  refine ⟨step_cfg_eq h, fun hp hr => ?_⟩
  rcases step_next hr h with ⟨_, _, i, _, hi⟩ | ⟨_, _, _, ht⟩ | ⟨hdecode, _⟩ | ⟨_, ht⟩
  · obtain ⟨_, _, _, hP, hLT⟩ := (exec_effect hi).fixed
    exact ⟨hP, hLT⟩
  · rw [ht]
    exact ⟨rfl, rfl⟩
  · exact absurd hdecode hp
  · rw [ht]
    exact ⟨rfl, rfl⟩

/-- A step that is no reset runs an instruction or leaves the output and the heap as they are. -/
theorem step_exec_or_output_heap_eq {s t : State} (hr : s.inbox.head? ≠ some .reset) (h : step s = .next t) :
    (∃ i, exec i s = .next t) ∨ (t.OUT = s.OUT ∧ t.H = s.H) := by
  rcases step_next hr h with ⟨_, _, i, _, hi⟩ | ⟨_, _, _, ht⟩ | ⟨_, ht⟩ | ⟨_, ht⟩
  · exact .inl ⟨i, hi⟩
  all_goals
    rw [ht]
    exact .inr ⟨rfl, rfl⟩

/-- An instruction extends the output at most. -/
theorem InstrEffect.output_eq_append {s t : State} {i : Instr} (he : InstrEffect s i t) :
    ∃ new, t.OUT = s.OUT ++ new := by
  cases he with
  | outChar | outNum => exact ⟨_, rfl⟩
  | _ => exact ⟨[], (List.append_nil _).symm⟩

/-- Settles O56: only an instruction writes `OUT` or the heap, and it appends to the one and writes a cell of the
other. -/
theorem outputAndWrittenCellsStay : Obligations.OutputAndWrittenCellsStay := by
  intro s t hr h
  rcases step_exec_or_output_heap_eq hr h with ⟨i, hi⟩ | ⟨hOUT, hH⟩
  · have he := exec_effect hi
    exact ⟨he.output_eq_append, fun _ hx => he.written_stays hx⟩
  · exact ⟨⟨[], by rw [hOUT, List.append_nil]⟩, fun _ hx => by rwa [hH]⟩

end Sys2Proof.Machine
end

