-- ==== Sys2Proof/Proofs/RoundTrip.lean ====
section
/-! PROOFS. The canonical spelling of an instruction decodes to it (30_encoding R96 to R110): IMP and SEL by the family
`Spelling`, then the operand, sign first, bits next, terminator last. -/

namespace Sys2Proof.Machine

/-! ### Reading an operand -/

section
variable {c : Config} {d : Decoder} {op : Opcode} {v : Int}

/-- The decoder after the sign of `v`, with no bit read yet (31_decoder_fsm R139). -/
def afterSign (d : Decoder) (v : Int) : Decoder :=
  { d with stage := .bits, neg := decide (v < 0), mag := 0, nbits := 0, offset := d.offset + 1 }

@[simp] theorem afterSign_neg (d : Decoder) (v : Int) : (afterSign d v).neg = decide (v < 0) := rfl
@[simp] theorem afterSign_mag (d : Decoder) (v : Int) : (afterSign d v).mag = 0 := rfl
@[simp] theorem afterSign_nbits (d : Decoder) (v : Int) : (afterSign d v).nbits = 0 := rfl

/-- The sign symbol starts an empty accumulator. -/
theorem decodeInstr_sign (hcr : d.cr = false) (hs : d.stage = .sign) (bs : List Byte) :
    decodeInstr c d ((if v < 0 then Sym.T else Sym.S).byte :: bs) = decodeInstr c (afterSign d v) bs := by
  rw [decodeInstr_symByte hcr]
  by_cases hv : v < 0 <;> simp [Decoder.symbol, hs, Decoder.signStage, afterSign, hv]

/-- The sign and the magnitude of a number give it back (30_encoding R97). -/
theorem operandValue_natAbs (v : Int) : operandValue (decide (v < 0)) v.natAbs = v := by
  by_cases hv : v < 0
  · simp only [operandValue, hv, decide_true, if_true]
    omega
  · simp only [operandValue, hv, decide_false, Bool.false_eq_true, if_false]
    omega

/-- The terminator completes the instruction, where a number is a word (31_decoder_fsm R142). -/
theorem decodeInstr_terminator (hcr : d.cr = false) (hs : d.stage = .bits) (ho : d.op = some op)
    (hn : op.isNumber = true → isWord c.W (operandValue d.neg d.mag)) (rest : List Byte) :
    decodeInstr c d (Sym.L.byte :: rest) = .instr (op.instr (operandValue d.neg d.mag)) rest := by
  rw [decodeInstr_symByte hcr]
  cases hop : op.isNumber with
  | false => simp [Decoder.symbol, hs, Decoder.bitsStage, ho, Decoder.finishOperand, hop]
  | true => simp [Decoder.symbol, hs, Decoder.bitsStage, ho, Decoder.finishOperand, hn hop]

/-- A word's magnitude does not exceed `2^(W-1)`, so the early range check of 31_decoder_fsm R141 passes it. -/
theorem natAbs_le_halfRange {W : Nat} (hv : isWord W v) : (v.natAbs : Int) ≤ halfRange W := by
  obtain ⟨hlow, hhigh⟩ := isWord_iff.mp hv
  omega

/-- The canonical spelling of an operand is read as that operand, where the encoding admits it. -/
theorem decodeInstr_operandSpelling (hcr : d.cr = false) (hs : d.stage = .sign) (ho : d.op = some op)
    (hnum : op.isNumber = true → isWord c.W v) (hlab : op.isLabel = true → labelFits c.labelBits v)
    (rest : List Byte) :
    decodeInstr c d ((operandSpelling v).map Sym.byte ++ rest) = .instr (op.instr v) rest := by
  have hmag : (digits 2 v.natAbs).foldl (fun m x => 2 * m + x) 0 = v.natAbs := digits_value (by omega) _
  have hbits := decodeInstr_bits (c := c) (op := op) (digits 2 v.natAbs) (Sym.L.byte :: rest) (afterSign d v) hcr rfl
    ho (digits_lt (by omega) _)
    (fun hl k hk => by simpa using digits_two_length (hlab hl k hk))
    (fun hn => by simpa only [afterSign_mag, hmag] using natAbs_le_halfRange (hnum hn))
  simp only [afterSign_neg, afterSign_mag, hmag] at hbits
  calc decodeInstr c d ((operandSpelling v).map Sym.byte ++ rest)
      = decodeInstr c (afterSign d v)
          ((digits 2 v.natAbs).map (fun x => (if x = 0 then Sym.S else Sym.T).byte) ++ Sym.L.byte :: rest) := by
        simp [operandSpelling, decodeInstr_sign hcr hs, Function.comp_def]
    _ = .instr (op.instr (operandValue (decide (v < 0)) v.natAbs)) rest := by
        rw [hbits, decodeInstr_terminator (op := op)]
        exacts [hcr, rfl, ho, by simpa only [operandValue_natAbs] using hnum]
    _ = .instr (op.instr v) rest := by rw [operandValue_natAbs]

end

/-! ### The whole instruction -/

/-- The family `Spelling` holds of every instruction. -/
theorem spelling_statement (i : Instr) : Laws.Spelling.Statement i := by
  cases i with
  | push n => exact Laws.Spelling.push n
  | duplicate => exact Laws.Spelling.duplicate
  | copy n => exact Laws.Spelling.copy n
  | swap => exact Laws.Spelling.swap
  | discard => exact Laws.Spelling.discard
  | slide n => exact Laws.Spelling.slide n
  | add => exact Laws.Spelling.add
  | sub => exact Laws.Spelling.sub
  | mul => exact Laws.Spelling.mul
  | div => exact Laws.Spelling.div
  | mod => exact Laws.Spelling.mod
  | store => exact Laws.Spelling.store
  | retrieve => exact Laws.Spelling.retrieve
  | mark l => exact Laws.Spelling.mark l
  | call l => exact Laws.Spelling.call l
  | jump l => exact Laws.Spelling.jump l
  | jumpIfZero l => exact Laws.Spelling.jumpIfZero l
  | jumpIfNegative l => exact Laws.Spelling.jumpIfNegative l
  | ret => exact Laws.Spelling.ret
  | endProg => exact Laws.Spelling.endProg
  | outChar => exact Laws.Spelling.outChar
  | outNum => exact Laws.Spelling.outNum
  | inChar => exact Laws.Spelling.inChar
  | inNum => exact Laws.Spelling.inNum

/-- What well-formedness asks of the operand depends on the opcode's format (30_encoding R93, R97, R104). -/
theorem operand_of_wf {c : Config} {i : Instr} {v : Int} (hi : i.wf c) (hv : i.operand? = some v) :
    (i.opcode.isNumber = true → isWord c.W v) ∧ (i.opcode.isLabel = true → labelFits c.labelBits v) := by
  obtain ⟨hnum, hlab⟩ := hi
  cases i with
  | push | copy | slide =>
    cases hv
    exact ⟨fun _ => hnum _ rfl, nofun⟩
  | mark | call | jump | jumpIfZero | jumpIfNegative =>
    cases hv
    exact ⟨nofun, fun _ => hlab _ rfl⟩
  | _ => cases hv

/-- Settles O44: IMP and SEL leave the decoder waiting for the operand, if there is one, and the operand is read
back. -/
theorem decodeEncodeAgree : Obligations.DecodeEncodeAgree := by
  intro c d i rest hi hd hcr
  obtain ⟨hinstr, hreads⟩ := spelling_statement i
  simp only [encode, Instr.spelling, List.map_append, List.append_assoc]
  rw [hreads c d _ hd hcr]
  cases hv : i.operand? with
  | none => rfl
  | some v =>
    obtain ⟨hnum, hlab⟩ := operand_of_wf hi hv
    have hiv : i.opcode.instr v = i := by simpa [hv] using hinstr v
    refine (decodeInstr_operandSpelling ?_ rfl rfl hnum hlab rest).trans (by rw [hiv])
    exact hcr

/-- Settles O47: the written-out words are the canonical spellings of their instructions, so O44 applies. -/
theorem writtenOutWordsDecode : Obligations.WrittenOutWordsDecode := by
  intro w hw
  obtain ⟨hbytes, hwf⟩ : w.1 = encode w.2 ∧ w.2.wf Config.standard := by
    revert w
    decide
  rw [hbytes, ← List.append_nil (encode w.2)]
  exact decodeEncodeAgree _ _ _ _ hwf rfl rfl

end Sys2Proof.Machine
end

