-- ==== Sys2Proof/Proofs/Selectors.lean ====
section
/-! PROOFS. The nine symbol strings that select no opcode (30_encoding R103), as strings the decoder reads and as pairs
of a state of stage `OPCODE` and a symbol. -/

namespace Sys2Proof.Machine

/-- The pairs of a state of 31_decoder_fsm R147 and a symbol that select no opcode (30_encoding R103). -/
def badSelections : List (Family × Option Sym × Sym) :=
  [(.stack, some .T, .T), (.arith, none, .L), (.arith, some .T, .L), (.heap, none, .L),
   (.flow, some .L, .S), (.flow, some .L, .T), (.io, none, .L), (.io, some .S, .L), (.io, some .T, .L)]

/-- In the 14 states of stage `OPCODE` the bad selections are exactly the listed ones (31_decoder_fsm R126). -/
theorem selectOpcode_eq_bad_iff (s : Sym) :
    ∀ p ∈ opcodeStates, selectOpcode p.1 p.2 s = .bad ↔ (p.1, p.2, s) ∈ badSelections := by
  cases s <;> decide

/-- Settles O40: each string is refused before the decoder looks at what follows, so the decoder reads it from reset by
evaluation; the pairs are a finite table. -/
theorem nineBadSelectors : Obligations.NineBadSelectors := by
  refine ⟨List.forall_iff_forall_mem.mp ?_, fun f sel s hp => selectOpcode_eq_bad_iff s (f, sel) hp⟩
  refine ⟨?_, ?_, ?_, ?_, ?_, ?_, ?_, ?_, ?_⟩ <;> exact fun _ => rfl

end Sys2Proof.Machine
end

