-- ==== Sys2Proof/Proofs/NoStop.lean ====
section
/-! PROOFS. Every instruction answers a next state, by the operations the instructions share; and so does every host
event from a decoder state of 31_decoder_fsm R147, but for a character the host wiring should have rejected. -/

namespace Sys2Proof.Machine

/-- An instruction, an event or a step answers a next state: no fault and no refusal. -/
abbrev Answers (r : Result) : Prop := ∃ t, r = .next t

theorem Answers.next (t : State) : Answers (.next t) := ⟨t, rfl⟩

theorem Answers.ite {p : Prop} [Decidable p] {a b : Result} (ha : Answers a) (hb : Answers b) :
    Answers (if p then a else b) := by
  split_ifs
  · exact ha
  · exact hb

/-! ### The instructions

A result, the entry on an error and a hold are all next states: the two entries `raise` and `raiseInput` are `.next` by
their definitions, so every branch closes with the state it names. -/

section
variable (s : State)

theorem pushWord_answers (v : Word) : Answers (pushWord v s) := .ite (.next _) (.next _)

theorem binary_answers (f : Int → Int → Word) : Answers (binary f s) := by
  unfold binary
  split <;> exact .next _

theorem dividing_answers (f : Int → Int → Word) : Answers (dividing f s) := by
  unfold dividing
  split
  · exact .next _
  · exact .ite (.next _) (.next _)

theorem jumpIf_answers (test : Int → Bool) (l : Int) : Answers (jumpIf test l s) := by
  unfold jumpIf
  split
  · exact .next _
  · split <;> exact .next _

theorem output_answers (text : Int → List Int) : Answers (output text s) := by
  unfold output
  split <;> exact .next _

theorem storeInput_answers (v : Word) (rest : List Nat) : Answers (storeInput v rest s) := by
  unfold storeInput
  split
  · exact .next _
  · split <;> exact .next _

theorem execDuplicate_answers : Answers (execDuplicate s) := by
  unfold execDuplicate
  split
  · exact .next _
  · exact pushWord_answers _ _

theorem execCopy_answers (n : Int) : Answers (execCopy n s) := by
  refine .ite (.next _) ?_
  split
  · exact .next _
  · exact pushWord_answers _ _

theorem execSwap_answers : Answers (execSwap s) := by
  unfold execSwap
  split <;> exact .next _

theorem execDiscard_answers : Answers (execDiscard s) := by
  unfold execDiscard
  split <;> exact .next _

theorem execSlide_answers (n : Int) : Answers (execSlide n s) := by
  refine .ite (.next _) ?_
  split <;> exact .next _

theorem execStore_answers : Answers (execStore s) := by
  unfold execStore
  split
  · exact .next _
  · split <;> exact .next _

theorem execRetrieve_answers : Answers (execRetrieve s) := by
  unfold execRetrieve
  split
  · exact .next _
  · split <;> exact .next _

theorem execCall_answers (l : Int) : Answers (execCall l s) := by
  refine .ite (.next _) ?_
  split <;> exact .next _

theorem execJump_answers (l : Int) : Answers (execJump l s) := by
  unfold execJump
  split <;> exact .next _

theorem execRet_answers : Answers (execRet s) := by
  unfold execRet
  split <;> exact .next _

theorem execInChar_answers : Answers (execInChar s) := by
  unfold execInChar
  split
  · exact .ite (.next _) (.next _)
  · exact storeInput_answers _ _ _

theorem execInNum_answers : Answers (execInNum s) := by
  unfold execInNum
  split
  · exact .ite (.next _) (.next _)
  · split
    · exact .next _
    · exact .ite (storeInput_answers _ _ _) (.next _)

/-- No instruction stops the machine. -/
theorem exec_answers (i : Instr) : Answers (exec i s) := by
  cases i with
  | push n => exact pushWord_answers s n
  | duplicate => exact execDuplicate_answers s
  | copy n => exact execCopy_answers s n
  | swap => exact execSwap_answers s
  | discard => exact execDiscard_answers s
  | slide n => exact execSlide_answers s n
  | add | sub | mul => exact binary_answers s _
  | div | mod => exact dividing_answers s _
  | store => exact execStore_answers s
  | retrieve => exact execRetrieve_answers s
  | mark l => exact .next _
  | call l => exact execCall_answers s l
  | jump l => exact execJump_answers s l
  | jumpIfZero l | jumpIfNegative l => exact jumpIf_answers s _ l
  | ret => exact execRet_answers s
  | endProg => exact .next _
  | outChar | outNum => exact output_answers s _
  | inChar => exact execInChar_answers s
  | inNum => exact execInNum_answers s

end

/-! ### The host events -/

theorem takeFront_answers {s : State} {r : FrontResult} {g : State → State} (h : r ≠ .unreachable) :
    Answers (takeFront s r g) := by
  cases r with
  | ok f => exact .next _
  | error k off f => exact .next _
  | unreachable => exact absurd rfl h

/-- From the states of 31_decoder_fsm R147 a byte never finds the decoder outside them. -/
theorem byte_ne_unreachable {c : Config} {f : Front} (hr : decoderReachable c f.D) (b : Byte) :
    f.byte c b ≠ .unreachable := by
  intro h
  unfold Front.byte at h
  dsimp only at h
  split at h
  · cases h
  · split at h
    · cases h
    · unfold Front.complete at h
      split at h <;> cases h
    · cases h
    · exact symbol_ne_unreachable (take_reachable b hr) _ ‹_›

theorem eof_ne_unreachable (f : Front) : f.eof ≠ .unreachable := by
  unfold Front.eof
  split_ifs <;> simp

/-- The delivery that is refused: a code out of range, before the run is over and the stream closed. Log entry 5. -/
theorem hostInputChar_answers_or (ch : Nat) (s : State) :
    Answers (hostInputChar ch s) ∨
      (halfRange s.cfg.W ≤ (ch : Int) ∧ s.IN.ended = false ∧ s.phase.isOver = false) := by
  unfold hostInputChar
  split_ifs with ho he hch
  · exact .inl (.next _)
  · exact .inl (.next _)
  · exact .inl (.next _)
  · exact .inr ⟨not_lt.mp hch, Bool.eq_false_iff.mpr he, Bool.eq_false_iff.mpr ho⟩

/-- A host event answers, or it is the refused delivery. -/
theorem hostEvent_answers_or {s : State} (hr : decoderReachable s.cfg s.D) (e : HostEvent) :
    Answers (hostEvent e s) ∨
      ∃ ch, e = .inputChar ch ∧
        halfRange s.cfg.W ≤ (ch : Int) ∧ s.IN.ended = false ∧ s.phase.isOver = false := by
  cases e with
  | byte b => exact .inl (.ite (takeFront_answers (byte_ne_unreachable hr b)) (.next _))
  | eof => exact .inl (.ite (takeFront_answers (eof_ne_unreachable _)) (.next _))
  | start => exact .inl (.ite (.next _) (.next _))
  | reset => exact .inl (.next _)
  | inputChar ch => exact (hostInputChar_answers_or ch s).imp_right fun h => ⟨ch, rfl, h⟩
  | inputEnd => exact .inl (.ite (.next _) (.next _))

theorem vmStep_answers (s : State) : Answers (vmStep s) := by
  unfold vmStep
  split
  · exact .next _
  · exact exec_answers s _

/-- The phases in which the run is not over (32_vm_cycle R165). -/
theorem Phase.isOver_eq_false_iff (p : Phase) : p.isOver = false ↔ p = .decode ∨ p = .ready ∨ p = .run := by
  cases p <;> simp [Phase.isOver]

/-- Settles O35: an instruction always answers, and an event does but for the refused delivery. -/
theorem noStopButOnAForeignDelivery : Obligations.NoStopButOnAForeignDelivery := by
  refine ⟨fun i s => exec_answers s i, fun s hr => ?_⟩
  cases hi : s.inbox with
  | nil =>
    refine .inl ?_
    unfold step
    rw [hi]
    exact Answers.ite (vmStep_answers s) (.next _)
  | cons e rest =>
    rw [step_of_event hi]
    refine (hostEvent_answers_or (s := { s with inbox := rest }) hr e).imp_right ?_
    rintro ⟨ch, rfl, hch, hopen, ho⟩
    exact ⟨ch, rfl, hch, hopen, (Phase.isOver_eq_false_iff _).mp ho⟩

end Sys2Proof.Machine
end

