-- ==== Sys2Proof/Proofs/IgnoredBytes.lean ====
section
/-! PROOFS. Under `CRLF_POLICY = independent` an ignored byte changes nothing but `D.offset` (30_encoding R91). The
decoder only counts in `D.offset` and copies it into the position of an error: no branch depends on it. So a stream
decoded from another offset has the same outcome, offsets apart, and an ignored byte can be dropped. -/

namespace Sys2Proof

/-! ### The decoder from another offset -/

/-- The decoder with another byte count. -/
def Decoder.setOffset (d : Decoder) (n : Nat) : Decoder := { d with offset := n }

@[simp] theorem Decoder.setOffset_stage (d : Decoder) (n : Nat) : (d.setOffset n).stage = d.stage := rfl
@[simp] theorem Decoder.setOffset_imp (d : Decoder) (n : Nat) : (d.setOffset n).imp = d.imp := rfl
@[simp] theorem Decoder.setOffset_sel (d : Decoder) (n : Nat) : (d.setOffset n).sel = d.sel := rfl
@[simp] theorem Decoder.setOffset_op (d : Decoder) (n : Nat) : (d.setOffset n).op = d.op := rfl

/-- The move with another byte count in the decoder it goes on with. -/
def Move.setOffset (m : Move) (n : Nat) : Move :=
  match m with
  | .goOn d => .goOn (d.setOffset n)
  | .complete i => .complete i
  | .error k => .error k
  | .unreachable => .unreachable

/-- The decoder's part of the state with another byte count. -/
def Front.setOffset (f : Front) (n : Nat) : Front := { f with D := f.D.setOffset n }

@[simp] theorem Front.setOffset_D (f : Front) (n : Nat) : (f.setOffset n).D = f.D.setOffset n := rfl

@[simp] theorem Front.setOffset_atBoundary (f : Front) (n : Nat) :
    (f.setOffset n).D.atBoundary = f.D.atBoundary := rfl

@[simp] theorem Front.setOffset_capacityError (c : Config) (f : Front) (n : Nat) (i : Instr) :
    (f.setOffset n).capacityError c i = f.capacityError c i := rfl

/-- The outcome of a decoder step, had it read its byte at offset `n`. -/
def FrontResult.readAt (r : FrontResult) (n : Nat) : FrontResult :=
  match r with
  | .ok f => .ok (f.setOffset (n + 1))
  | .error k _ f => .error k n (f.setOffset (n + 1))
  | .unreachable => .unreachable

section
variable (c : Config) (d : Decoder) (n : Nat) (s : Sym)

theorem impStage_setOffset : (d.setOffset n).impStage s = (d.impStage s).setOffset n := by
  unfold Decoder.impStage
  rw [Decoder.setOffset_sel]
  split <;> rfl

theorem opcodeStage_setOffset : (d.setOffset n).opcodeStage s = (d.opcodeStage s).setOffset n := by
  unfold Decoder.opcodeStage
  rw [Decoder.setOffset_imp, Decoder.setOffset_sel]
  cases d.imp with
  | none => rfl
  | some f =>
    dsimp only
    cases selectOpcode f d.sel s <;> rfl

theorem signStage_setOffset : (d.setOffset n).signStage s = (d.signStage s).setOffset n := by
  cases s <;> rfl

theorem bit_setOffset (op : Opcode) (b : Bool) : (d.setOffset n).bit c op b = (d.bit c op b).setOffset n := by
  simp only [Decoder.bit, apply_ite (Move.setOffset · n)]
  rfl

theorem finishOperand_setOffset (op : Opcode) :
    (d.setOffset n).finishOperand c op = (d.finishOperand c op).setOffset n := by
  simp only [Decoder.finishOperand, apply_ite (Move.setOffset · n)]
  rfl

theorem bitsStage_setOffset : (d.setOffset n).bitsStage c s = (d.bitsStage c s).setOffset n := by
  unfold Decoder.bitsStage
  rw [Decoder.setOffset_op]
  cases d.op with
  | none => rfl
  | some op =>
    cases s with
    | S => exact bit_setOffset c d n op false
    | T => exact bit_setOffset c d n op true
    | L => exact finishOperand_setOffset c d n op

/-- No move depends on the byte count (31_decoder_fsm R124). -/
theorem symbol_setOffset : (d.setOffset n).symbol c s = (d.symbol c s).setOffset n := by
  unfold Decoder.symbol
  rw [Decoder.setOffset_stage]
  cases d.stage with
  | imp => exact impStage_setOffset d n s
  | opcode => exact opcodeStage_setOffset d n s
  | sign => exact signStage_setOffset d n s
  | bits => exact bitsStage_setOffset c d n s

end

theorem take_setOffset (c : Config) (d : Decoder) (n : Nat) (b : Byte) :
    (d.setOffset n).take c b = ((d.take c b).1.setOffset (n + 1), (d.take c b).2) := rfl

theorem complete_setOffset (c : Config) (f : Front) (n off : Nat) (i : Instr) :
    (f.setOffset (n + 1)).complete c n i = (f.complete c off i).readAt n := by
  unfold Front.complete
  rw [Front.setOffset_capacityError]
  cases f.capacityError c i <;> rfl

/-- A decoder step depends on the byte count for the count after it and the position of an error only
(31_decoder_fsm R121). -/
theorem byte_setOffset (c : Config) (f : Front) (n : Nat) (b : Byte) :
    (f.setOffset n).byte c b = (f.byte c b).readAt n := by
  unfold Front.byte
  rw [Front.setOffset_D, take_setOffset]
  dsimp only
  cases (f.D.take c b).2 with
  | none => rfl
  | some s =>
    dsimp only
    rw [symbol_setOffset]
    cases (f.D.take c b).1.symbol c s with
    | goOn d => rfl
    | complete i => exact complete_setOffset c { f with D := (f.D.take c b).1 } n f.D.offset i
    | error k => rfl
    | unreachable => rfl

namespace Machine

theorem forgetOffset_eof_setOffset (f : Front) (n : Nat) : forgetOffset (f.setOffset n).eof = forgetOffset f.eof := by
  unfold Front.eof
  rw [Front.setOffset_atBoundary]
  cases f.D.atBoundary <;> rfl

/-- A stream decoded from another offset has the same outcome, offsets apart. -/
theorem forgetOffset_stream_setOffset (c : Config) (bs : List Byte) (f : Front) (n : Nat) :
    forgetOffset (Front.stream c (f.setOffset n) bs) = forgetOffset (Front.stream c f bs) := by
  induction bs generalizing f n with
  | nil => exact forgetOffset_eof_setOffset f n
  | cons b bs ih =>
    simp only [Front.stream, byte_setOffset]
    cases f.byte c b with
    | ok g => exact ih g (n + 1)
    | error k off g => rfl
    | unreachable => rfl

/-! ### Ignored bytes -/

/-- An ignored byte is counted, and nothing else happens (31_decoder_fsm R123). -/
theorem byte_of_ignored {c : Config} (hc : c.crlf = .independent) (f : Front) {b : Byte} (hb : tokenizeByte b = none) :
    f.byte c b = .ok (f.setOffset (f.D.offset + 1)) := by
  simp [Front.byte, Decoder.take, tokenize, hc, hb, Front.setOffset, Decoder.setOffset]

/-- Settles O46: an ignored byte only moves the offset, and the rest of the stream does not depend on it. -/
theorem ignoredBytesDoNotMatter : Obligations.IgnoredBytesDoNotMatter := by
  intro c f bs hc
  induction bs generalizing f with
  | nil => rfl
  | cons b bs ih =>
    cases hb : tokenizeByte b with
    | none =>
      simp only [Front.stream, byte_of_ignored hc f hb, List.filter_cons, hb]
      exact (ih _).trans (forgetOffset_stream_setOffset ..)
    | some s =>
      simp only [Front.stream, List.filter_cons, hb, Option.isSome_some, if_true]
      cases f.byte c b with
      | ok g => exact ih g
      | error k off g => rfl
      | unreachable => rfl

end Machine
end Sys2Proof
end

