-- ==== Sys2Proof/Proofs/DecoderTables.lean ====
section
/-! PROOFS. The decoder's tables (31_decoder_fsm R122 to R144): the tokenizer, a symbol in each of the four stages, and
the completion of an instruction. -/

namespace Sys2Proof

open Machine

/-! ### The tokenizer -/

/-- A byte other than the four of 30_encoding R90 is no symbol. -/
theorem tokenizeByte_of_ne {b : Byte} (hS : b ≠ 0x20) (hT : b ≠ 0x09) (hLF : b ≠ 0x0A) (hCR : b ≠ 0x0D) :
    tokenizeByte b = none := by
  simp only [tokenizeByte, hS, hT, hLF, hCR, if_false]

/-- Under `merge` only a line feed right after a carriage return is read otherwise than under `independent`. -/
theorem tokenize_merge_of_not {cr : Bool} {b : Byte} (h : ¬ (b = 0x0A ∧ cr = true)) :
    (tokenize .merge cr b).1 = (tokenize .independent cr b).1 :=
  if_neg h

/-- Settles O36: the four symbol bytes by evaluation, every other byte by being none of them. -/
theorem tokenizerTable : Obligations.TokenizerTable :=
  ⟨fun _ => ⟨rfl, rfl, rfl, rfl⟩, fun cr _ hS hT hLF hCR => congrArg (·, cr) (tokenizeByte_of_ne hS hT hLF hCR),
    fun _ _ => rfl, rfl, fun _ _ => tokenize_merge_of_not⟩

/-! ### A symbol, by stage: IMP and OPCODE -/

section
variable {c : Config} {d : Decoder} {s : Sym}

/-- In stage `IMP` a symbol does what that stage says (31_decoder_fsm R124). -/
theorem symbol_of_imp (hs : d.stage = .imp) : d.symbol c s = d.impStage s := by
  simp only [Decoder.symbol, hs]

theorem symbol_of_opcode (hs : d.stage = .opcode) : d.symbol c s = d.opcodeStage s := by
  simp only [Decoder.symbol, hs]

theorem symbol_of_sign (hs : d.stage = .sign) : d.symbol c s = d.signStage s := by
  simp only [Decoder.symbol, hs]

theorem symbol_of_bits {op : Opcode} (hs : d.stage = .bits) (ho : d.op = some op) :
    d.symbol c .S = d.bit c op false ∧ d.symbol c .T = d.bit c op true ∧ d.symbol c .L = d.finishOperand c op := by
  simp only [Decoder.symbol, hs, Decoder.bitsStage, ho, and_self]

end

/-- Settles O38: the two states of stage `IMP`, a symbol at a time. -/
theorem impStageSelectsTheFamily : Obligations.ImpStageSelectsTheFamily := by
  intro c d hs
  simp only [symbol_of_imp hs]
  constructor <;> intro hsel <;> simp only [Decoder.impStage, hsel, and_self]

/-- What a selection makes the decoder do in stage `OPCODE` (31_decoder_fsm R124, R126). -/
def Decoder.selected (d : Decoder) : Selection → Move
  | .more s => .goOn { d with sel := some s }
  | .need op => .goOn { d with op := some op, sel := none, stage := .sign }
  | .done op => .complete (op.instr 0)
  | .bad => .error .badOpcodeSelector

/-- In stage `OPCODE` the pair of `D.imp` and `D.sel` and the symbol select what happens. -/
theorem symbol_of_selectors {c : Config} {d : Decoder} {f : Family} {sel : Option Sym} (hs : d.stage = .opcode)
    (himp : d.imp = some f) (hsel : d.sel = sel) (s : Sym) :
    d.symbol c s = d.selected (selectOpcode f sel s) := by
  rw [symbol_of_opcode hs]
  cases d
  subst himp hsel
  simp only [Decoder.opcodeStage]
  cases selectOpcode f _ s <;> rfl

/-- Settles O39: a row of the table is what the three symbols select. -/
theorem opcodeStageTable : Obligations.OpcodeStageTable := by
  intro c d hs more need bad row
  refine ⟨?_, ?_, ?_, ?_, ?_, ?_, ?_, ?_, ?_, ?_, ?_, ?_, ?_, ?_⟩ <;> intro himp hsel <;>
    exact ⟨symbol_of_selectors hs himp hsel .S, symbol_of_selectors hs himp hsel .T,
      symbol_of_selectors hs himp hsel .L⟩

/-! ### The operand -/

section
variable {c : Config} {d : Decoder} {op : Opcode}

/-- A label is no number (30_encoding R93). -/
theorem isNumber_eq_false_of_isLabel (h : op.isLabel = true) : op.isNumber = false := by
  cases op with
  | mark | call | jump | jumpIfZero | jumpIfNegative => rfl
  | _ => cases h

theorem isLabel_eq_false_of_isNumber (h : op.isNumber = true) : op.isLabel = false :=
  Bool.eq_false_iff.mpr fun hl => by simp [isNumber_eq_false_of_isLabel hl] at h

/-- A bit is accumulated where neither limit of 31_decoder_fsm R141 is met. -/
theorem bit_goOn {b : Bool} (hlabel : op.isLabel = true → hasRoom c.labelBits d.nbits)
    (hnumber : op.isNumber = true → c.rangeCheck = .early → 2 * d.mag + b.toNat ≤ 2 ^ (c.W - 1)) :
    d.bit c op b = .goOn { d with mag := 2 * d.mag + b.toNat, nbits := d.nbits + 1 } := by
  have hbits : ¬ ((op.isLabel && atCap c.labelBits d.nbits) = true) := by
    rw [Bool.and_eq_true]
    rintro ⟨hl, hcap⟩
    simp [atCap_eq_false.mpr (hlabel hl)] at hcap
  have hrange : ¬ ((op.isNumber &&
      decide (c.rangeCheck = .early ∧ halfRange c.W < ((2 * d.mag + b.toNat : Nat) : Int))) = true) := by
    rw [Bool.and_eq_true, decide_eq_true_eq]
    rintro ⟨hn, hearly, hlt⟩
    exact absurd (Int.ofNat_lt.mp hlt) (not_lt.mpr (hnumber hn hearly))
  exact (if_neg hbits).trans (if_neg hrange)

/-- A label has no room for a bit more than `LABEL_BITS` (31_decoder_fsm R141). -/
theorem bit_of_full_label {b : Bool} (hl : op.isLabel = true) (hfull : ¬ hasRoom c.labelBits d.nbits) :
    d.bit c op b = .error .operandRange :=
  if_pos (by rw [hl, Bool.true_and]; exact Bool.of_not_eq_false fun h => hfull (atCap_eq_false.mp h))

/-- The early accumulator refuses the bit that takes a number's magnitude above `2 ^ (W - 1)` (31_decoder_fsm R141). -/
theorem bit_of_early_overflow {b : Bool} (hn : op.isNumber = true) (hearly : c.rangeCheck = .early)
    (hlt : 2 ^ (c.W - 1) < 2 * d.mag + b.toNat) : d.bit c op b = .error .operandRange := by
  have hrange : halfRange c.W < ((2 * d.mag + b.toNat : Nat) : Int) := Int.ofNat_lt.mpr hlt
  have hlabel : ¬ ((op.isLabel && atCap c.labelBits d.nbits) = true) := by simp [isLabel_eq_false_of_isNumber hn]
  exact (if_neg hlabel).trans (if_pos (by rw [hn, Bool.true_and]; exact decide_eq_true ⟨hearly, hrange⟩))

/-- The terminator completes the instruction, where a number is a word (31_decoder_fsm R142). -/
theorem finishOperand_complete (h : op.isLabel = true ∨ isWord c.W (operandValue d.neg d.mag)) :
    d.finishOperand c op = .complete (op.instr (operandValue d.neg d.mag)) := by
  rcases h with hl | hw
  · simp [Decoder.finishOperand, isNumber_eq_false_of_isLabel hl]
  · simp [Decoder.finishOperand, hw]

/-- A number that is no word is refused at the terminator (31_decoder_fsm R142). -/
theorem finishOperand_error (hn : op.isNumber = true) (hw : ¬ isWord c.W (operandValue d.neg d.mag)) :
    d.finishOperand c op = .error .operandRange := by
  simp only [Decoder.finishOperand, hn, hw, decide_false, Bool.not_false, Bool.and_self, if_true]

end

/-- Settles O41: the sign by evaluation, a bit by the limits it meets, the terminator by whether the value is a word. -/
theorem operandStages : Obligations.OperandStages := by
  intro c d
  refine ⟨fun hs => ?_, fun op hs ho => ?_⟩
  · simp only [symbol_of_sign hs]
    exact ⟨rfl, rfl, rfl⟩
  · obtain ⟨hS, hT, hL⟩ := symbol_of_bits (c := c) hs ho
    rw [hS, hT, hL]
    refine ⟨fun hl hroom => ?_, fun hl hfull => ?_, fun hn hlate => ?_, fun hn hearly x bit hx => ?_, ?_⟩
    · have hnumber : op.isNumber ≠ true := by simp [isNumber_eq_false_of_isLabel hl]
      exact ⟨bit_goOn (fun _ => hroom) (absurd · hnumber), bit_goOn (fun _ => hroom) (absurd · hnumber)⟩
    · exact ⟨bit_of_full_label hl hfull, bit_of_full_label hl hfull⟩
    · have hlabel : op.isLabel ≠ true := by simp [isLabel_eq_false_of_isNumber hn]
      have hnever : c.rangeCheck ≠ .early := by simp [hlate]
      exact ⟨bit_goOn (absurd · hlabel) fun _ => (absurd · hnever),
        bit_goOn (absurd · hlabel) fun _ => (absurd · hnever)⟩
    · have hlabel : op.isLabel ≠ true := by simp [isLabel_eq_false_of_isNumber hn]
      obtain ⟨b, hb, hsym⟩ : ∃ b : Bool, b.toNat = bit ∧ d.symbol c x = d.bit c op b := by
        simp only [List.mem_cons, Prod.mk.injEq, List.not_mem_nil, or_false] at hx
        rcases hx with ⟨rfl, rfl⟩ | ⟨rfl, rfl⟩
        · exact ⟨false, rfl, hS⟩
        · exact ⟨true, rfl, hT⟩
      subst hb
      rw [hsym]
      exact ⟨bit_of_early_overflow hn hearly, fun hle => bit_goOn (absurd · hlabel) fun _ _ => hle⟩
    · rintro v rfl
      exact ⟨finishOperand_error, finishOperand_complete⟩

/-! ### Completing an instruction -/

section
variable {c : Config} {f : Front} {i : Instr}

theorem atCap_of_not_hasRoom {cap : Option Nat} {n : Nat} (h : ¬ hasRoom cap n) : atCap cap n = true :=
  Bool.of_not_eq_false fun hcap => h (atCap_eq_false.mp hcap)

theorem complete_of_capacityError {off : Nat} {k : ErrKind} (h : f.capacityError c i = some k) :
    f.complete c off i = .error k off f := by
  simp only [Front.complete, h]

/-- An instruction the capacities leave room for is appended (31_decoder_fsm R143). -/
theorem complete_of_room {off : Nat} (h : f.capacityError c i = none) : f.complete c off i = .ok (f.append i) := by
  simp only [Front.complete, h]

/-- The program is checked first (31_decoder_fsm R143). -/
theorem capacityError_of_full_program (h : ¬ hasRoom c.progCap f.P.length) :
    f.capacityError c i = some .programCapacity :=
  if_pos (atCap_of_not_hasRoom h)

/-- The label table is full for a label it does not hold (31_decoder_fsm R144). -/
theorem capacityError_of_full_labels {l : Int} (hp : hasRoom c.progCap f.P.length) (hnew : IntMap.get? f.LT l = none)
    (hfull : ¬ hasRoom c.labelCap f.LT.length) : f.capacityError c (.mark l) = some .labelCapacity := by
  simp [Front.capacityError, atCap_eq_false.mpr hp, Instr.markLabel?, hnew, atCap_of_not_hasRoom hfull]

/-- Both checks pass where the program has room and a `Mark`'s label is known or has room. -/
theorem capacityError_eq_none (hp : hasRoom c.progCap f.P.length)
    (hl : ∀ l, i = .mark l → IntMap.get? f.LT l ≠ none ∨ hasRoom c.labelCap f.LT.length) :
    f.capacityError c i = none := by
  cases i with
  | mark l =>
    rcases hl l rfl with hold | hroom
    · simp [Front.capacityError, atCap_eq_false.mpr hp, Instr.markLabel?, hold]
    · exact capacityError_none hp hroom
  | _ => simp [Front.capacityError, atCap_eq_false.mpr hp, Instr.markLabel?]

end

/-- Settles O42: by which of the two capacity checks fails, if any. -/
theorem completingAnInstruction : Obligations.CompletingAnInstruction := by
  refine fun c f off i => ⟨fun hfull => ?_, ?_, fun hp hl => ?_⟩
  · exact complete_of_capacityError (capacityError_of_full_program hfull)
  · rintro l hp rfl hnew hfull
    exact complete_of_capacityError (capacityError_of_full_labels hp hnew hfull)
  · exact ⟨(f.append i).LT, complete_of_room (capacityError_eq_none hp hl), append_get? f i⟩

end Sys2Proof
end

