-- ==== Sys2Proof/Proofs/DecoderSteps.lean ====
section
/-! PROOFS. The steps that take the source stream (31_decoder_fsm R121, R145), and the two parts of the invariant that
stand on their own, the decoder's and the status registers'. -/

namespace Sys2Proof

section
variable {c : Config} {f : Front} {b : Byte} {d : Decoder}

/-- No symbol: the byte is counted, and nothing else happens (31_decoder_fsm R123). -/
theorem byte_of_no_symbol (ht : f.D.take c b = (d, none)) : f.byte c b = .ok { f with D := d } := by
  simp only [Front.byte, ht]

/-- A symbol: the outcome of the decoder step is that of its move (31_decoder_fsm R121). -/
theorem byte_of_symbol {x : Sym} (ht : f.D.take c b = (d, some x)) :
    (∀ d', d.symbol c x = .goOn d' → f.byte c b = .ok { f with D := d' }) ∧
    (∀ i, d.symbol c x = .complete i → f.byte c b = Front.complete c { f with D := d } f.D.offset i) ∧
    (∀ k, d.symbol c x = .error k → f.byte c b = .error k f.D.offset { f with D := d }) := by
  refine ⟨fun d' hm => ?_, fun i hm => ?_, fun k hm => ?_⟩ <;> simp only [Front.byte, ht, hm]

end

theorem atBoundary_iff {d : Decoder} : d.atBoundary = true ↔ d.stage = .imp ∧ d.sel = none := decide_eq_true_iff

theorem eof_of_boundary {f : Front} (h : f.D.stage = .imp ∧ f.D.sel = none) : f.eof = .ok f :=
  if_pos (atBoundary_iff.mpr h)

theorem eof_of_not_boundary {f : Front} (h : ¬ (f.D.stage = .imp ∧ f.D.sel = none)) :
    f.eof = .error .unexpectedEOF f.D.offset f :=
  if_neg (mt atBoundary_iff.mp h)

namespace Machine

section
variable {s : State} {rest : List HostEvent}

/-- In `DECODE` a step takes a byte of the source stream into the decoder's part of the state. -/
theorem step_of_byte {b : Byte} (hi : s.inbox = .byte b :: rest) (hp : s.phase = .decode) :
    step s = takeFront { s with inbox := rest } (s.front.byte s.cfg b) id :=
  (step_of_event hi).trans (if_pos hp)

/-- In `DECODE` a step takes the end of the source stream into the decoder's part of the state. -/
theorem step_of_eof (hi : s.inbox = .eof :: rest) (hp : s.phase = .decode) :
    step s = takeFront { s with inbox := rest } s.front.eof (fun t => { t with phase := .ready }) :=
  (step_of_event hi).trans (if_pos hp)

end

/-- Settles O37: outside `DECODE` the byte is dropped; in `DECODE` the state takes the outcome of the decoder step. -/
theorem decoderStepOnAByte : Obligations.DecoderStepOnAByte := by
  refine fun s b rest hi => ⟨fun hp => (step_of_event hi).trans (if_neg hp), ?_⟩
  rintro hp x cr d htok rfl
  have htake : s.front.D.take s.cfg b = ({ s.D with offset := s.D.offset + 1, cr := cr }, x) := by
    simp only [Decoder.take, front_D, htok]
  rw [step_of_byte hi hp]
  refine ⟨?_, ?_⟩
  · rintro rfl
    rw [byte_of_no_symbol htake]
    rfl
  · rintro y rfl
    obtain ⟨hgoOn, hcomplete, herror⟩ := byte_of_symbol htake
    refine ⟨fun d' hm => ?_, fun i f hm hc => ?_, fun i k f hm hc => ?_, fun k hm => ?_⟩
    · rw [hgoOn d' hm]
      rfl
    · rw [(hcomplete i hm).trans hc]
      rfl
    · rw [(hcomplete i hm).trans hc]
      rfl
    · rw [herror k hm]
      rfl

/-- Settles O43: by whether the decoder is between two instructions. -/
theorem endOfStream : Obligations.EndOfStream := by
  intro s rest hi hp
  rw [step_of_eof hi hp]
  refine ⟨fun hstage hsel => ?_, fun h => ?_⟩
  · rw [eof_of_boundary ⟨hstage, hsel⟩]
    rfl
  · rw [eof_of_not_boundary h]
    rfl

/-- An instruction, run at a boundary, leaves the decoder there. -/
theorem InstrEffect.decoderInv {s t : State} {i : Instr} (hp : s.phase = .run) (he : InstrEffect s i t)
    (h : DecoderInv s) : DecoderInv t := by
  obtain ⟨hcfg, _, hD, _, _⟩ := he.fixed
  exact h.of_boundary (h.boundary (.inr (.inl hp))) hcfg hD

/-- Settles O53: the events, the instructions and the end of the run each keep the decoder's part, and each keep the
status part. -/
theorem stepKeepsDecoderAndStatus : Obligations.StepKeepsDecoderAndStatus where
  left _ _ := step_keeps (fun _ _ h => h.congr rfl rfl rfl) EventEffect.decoderInv
    (fun hp _ he h => he.decoderInv hp h) (fun hp h => h.of_boundary (h.boundary (.inr (.inl hp))) rfl rfl)
  right _ _ := step_keeps (fun _ _ h => h) EventEffect.statusInv (fun hp _ he h => he.statusInv hp h)
    (fun hp h => InstrEffect.endProg.statusInv hp h)

end Machine
end Sys2Proof
end

