-- ==== Sys2Proof/Proofs/SourceToProgram.lean ====
section
/-! PROOFS. From source bytes to a running program (31_decoder_fsm R120, R143 to R148): the decoder's part of the state
follows `Front.stream`, one step a byte; a stream that begins with the canonical bytes of an instruction is the rest of
the stream from the decoder's part with that instruction appended; the bytes of a program are such a beginning,
instruction by instruction. -/

namespace Sys2Proof

open Machine

/-! ### What the stages leave alone -/

section
variable {c : Config} {d d' : Decoder} {s : Sym}

/-- `restart` keeps the byte count and `D.cr` and fixes the rest: no stage writes the two (31_decoder_fsm R121). -/
theorem restart_of_goOn (h : d.symbol c s = .goOn d') : d'.restart = d.restart := by
  unfold Decoder.symbol at h
  cases hs : d.stage <;> simp only [hs] at h
  case imp =>
    unfold Decoder.impStage at h
    split at h <;> cases h <;> rfl
  case opcode =>
    unfold Decoder.opcodeStage at h
    split at h
    · cases h
    · split at h <;> cases h <;> rfl
  case sign =>
    cases s <;> cases h <;> rfl
  case bits =>
    simp only [Decoder.bitsStage, Decoder.bit, Decoder.finishOperand] at h
    split at h
    · cases h
    · cases s <;> dsimp only at h <;> split_ifs at h <;> cases h <;> rfl

theorem cr_of_goOn (h : d.symbol c s = .goOn d') : d'.cr = d.cr := by
  have hr : d'.restart.cr = d.restart.cr := by rw [restart_of_goOn h]
  exact hr

theorem offset_of_goOn (h : d.symbol c s = .goOn d') : d'.offset = d.offset := by
  have hr : d'.restart.offset = d.restart.offset := by rw [restart_of_goOn h]
  exact hr

/-- A decoder with nothing of an instruction read is at a boundary (31_decoder_fsm R145). -/
theorem boundary_of_restart (h : d.restart = d) : d.stage = .imp ∧ d.sel = none :=
  ⟨congrArg Decoder.stage h.symm, congrArg Decoder.sel h.symm⟩

end

/-- Of the decoder, appending an instruction keeps what `restart` keeps. -/
theorem append_of_restart {f : Front} {d : Decoder} (h : d.restart = f.D.restart) (i : Instr) :
    Front.append { f with D := d } i = f.append i := by
  simp only [Front.append, h]

/-! ### The canonical bytes of a program at the front of a stream -/

/-- Symbols that decode to an instruction, at the front of a stream, append it and are counted, where the capacities
leave room. -/
theorem stream_of_decodeInstr {c : Config} {i : Instr} (more : List Byte) (syms : List Sym) (f : Front)
    (hcr : f.D.cr = false) (hcap : f.capacityError c i = none)
    (hdec : decodeInstr c f.D (syms.map Sym.byte) = .instr i []) :
    Front.stream c f (syms.map Sym.byte ++ more) =
      Front.stream c ((f.append i).setOffset (f.D.offset + syms.length)) more := by
  induction syms generalizing f with
  | nil =>
    simp only [List.map_nil, decodeInstr] at hdec
    split_ifs at hdec
  | cons s syms ih =>
    let counted : Front := f.setOffset (f.D.offset + 1)
    rw [List.map_cons, decodeInstr_symByte hcr] at hdec
    obtain ⟨hgoOn, hcomplete, -⟩ := byte_of_symbol (take_symByte (c := c) hcr s)
    simp only [List.map_cons, List.cons_append, Front.stream]
    split at hdec
    next d' hm =>
      have happend : Front.append { f with D := d' } i = counted.append i :=
        append_of_restart (f := counted) (restart_of_goOn hm) i
      rw [hgoOn d' hm]
      dsimp only
      rw [ih { f with D := d' } ((cr_of_goOn hm).trans hcr) hcap hdec, happend, offset_of_goOn hm, List.length_cons,
        Nat.add_right_comm, Nat.add_assoc]
      rfl
    next i' hm =>
      obtain ⟨rfl, hnil⟩ : i' = i ∧ syms.map Sym.byte = [] := by simpa using hdec
      obtain rfl : syms = [] := List.map_eq_nil_iff.mp hnil
      have hroom : counted.complete c f.D.offset i' = .ok (counted.append i') := complete_of_room hcap
      rw [(hcomplete i' hm).trans hroom]
      rfl
    next => cases hdec
    next => cases hdec

/-- The canonical bytes of an instruction at the front of a stream append it (30_encoding R110). -/
theorem stream_encode {c : Config} {f : Front} {i : Instr} (hi : i.wf c) (hr : f.D.restart = f.D)
    (hcr : f.D.cr = false) (hcap : f.capacityError c i = none) (more : List Byte) :
    Front.stream c f (encode i ++ more) =
      Front.stream c ((f.append i).setOffset (f.D.offset + (encode i).length)) more := by
  have hdec := decodeEncodeAgree c f.D i [] hi hr hcr
  rw [List.append_nil] at hdec
  rw [encode, List.length_map]
  exact stream_of_decodeInstr more i.spelling f hcr hcap hdec

/-- The last `Mark` of a label, the first instruction apart: it counts where no later one does. -/
theorem lastMarkFrom_or (k : Nat) (i : Instr) (is : List Instr) (l : Int) (old : Option Nat) :
    (lastMarkFrom (k + 1) is l).or (if i = .mark l then some k else old) = (lastMarkFrom k (i :: is) l).or old := by
  rw [lastMarkFrom]
  cases lastMarkFrom (k + 1) is l with
  | some j => rfl
  | none => by_cases hm : i = .mark l <;> simp [hm]

/-- The canonical bytes of a program are a stream that appends it, and each label names its last `Mark`
(31_decoder_fsm R143 to R145). -/
theorem stream_program {c : Config} (is : List Instr) (f : Front) (hr : f.D.restart = f.D)
    (hcr : f.D.cr = false) (hwf : ∀ i ∈ is, i.wf c) (hprog : ∀ k ∈ c.progCap, f.P.length + is.length ≤ k)
    (hlabels : ∀ k ∈ c.labelCap, f.LT.length + is.length ≤ k) :
    ∃ LT', Front.stream c f (is.flatMap encode) =
        .ok { D := f.D.setOffset (f.D.offset + (is.flatMap encode).length), P := f.P ++ is, LT := LT' } ∧
      ∀ l, IntMap.get? LT' l = (lastMarkFrom f.P.length is l).or (IntMap.get? f.LT l) := by
  induction is generalizing f with
  | nil =>
    refine ⟨f.LT, ?_, fun l => rfl⟩
    rw [List.append_nil]
    exact eof_of_boundary (boundary_of_restart hr)
  | cons i is ih =>
    simp only [List.length_cons] at hprog hlabels
    have hroom : f.capacityError c i = none :=
      capacityError_none (fun k hk => by have := hprog k hk; omega) (fun k hk => by have := hlabels k hk; omega)
    let g := (f.append i).setOffset (f.D.offset + (encode i).length)
    have hD : g.D = f.D.setOffset (f.D.offset + (encode i).length) := congrArg (Decoder.setOffset · _) hr
    have hP : g.P.length = f.P.length + 1 := List.length_append
    have hLT : g.LT.length ≤ f.LT.length + 1 := append_LT_length f i
    obtain ⟨LT', hstream, hget⟩ := ih g rfl hcr (fun j hj => hwf j (List.mem_cons_of_mem _ hj))
      (fun k hk => by have := hprog k hk; omega) (fun k hk => by have := hlabels k hk; omega)
    refine ⟨LT', ?_, fun l => ?_⟩
    · rw [List.flatMap_cons, stream_encode (hwf i List.mem_cons_self) hr hcr hroom, hstream, hD]
      simp [g, Front.append, Front.setOffset, Decoder.setOffset, Nat.add_assoc]
    · have hg : IntMap.get? g.LT l = if i = .mark l then some f.P.length else IntMap.get? f.LT l := append_get? f i l
      rw [hget, hg, hP, lastMarkFrom_or]

namespace Machine

/-! ### The machine follows the stream -/

/-- In `READY` a step takes `start` and enters `RUN` (32_vm_cycle R160). -/
theorem step_of_start {s : State} {rest : List HostEvent} (hi : s.inbox = .start :: rest) (hp : s.phase = .ready) :
    step s = .next { s with inbox := rest, phase := .run } :=
  (step_of_event hi).trans (if_pos hp)

theorem run_succ_of_step {s t : State} (h : step s = .next t) (n : Nat) :
    Host.Core.run core (n + 1) s = Host.Core.run core n t := by
  have hcore : core.step s = .next t := h
  simp only [Host.Core.run, hcore]

/-- A source stream that ends without an error is taken one byte a step, `end` by the last (70_reset_and_hazards R345),
and leaves the decoder's part as the stream does, in `READY`. -/
theorem run_of_stream {rest : List HostEvent} {f : Front} (bytes : List Byte) (s : State) (hp : s.phase = .decode)
    (hi : s.inbox = bytes.map .byte ++ .eof :: rest) (hf : Front.stream s.cfg s.front bytes = .ok f) :
    Host.Core.run core (bytes.length + 1) s = .next { s.withFront f with inbox := rest, phase := .ready } := by
  induction bytes generalizing s with
  | nil =>
    have hstep : step s = .next { s.withFront f with inbox := rest, phase := .ready } := by
      rw [step_of_eof hi hp, show s.front.eof = .ok f from hf]
      rfl
    exact run_succ_of_step hstep 0
  | cons b bytes ih =>
    rw [Front.stream] at hf
    split at hf
    next g hg =>
      have hstep : step s = .next { s.withFront g with inbox := bytes.map .byte ++ .eof :: rest } := by
        rw [step_of_byte hi hp, hg]
        rfl
      rw [List.length_cons, run_succ_of_step hstep]
      exact ih _ hp rfl hf
    next hne => exact absurd hf (hne f)

/-- Settles O45: the bytes of the program are a stream that appends it, the machine follows the stream to `READY`, and
`start` starts the run. -/
theorem sourceBytesBecomeTheProgram : Obligations.SourceBytesBecomeTheProgram := by
  rintro s is bytes rest hp hr hcr hwf hprog hlabels rfl hi
  obtain ⟨LT', hstream, hget⟩ := stream_program is s.front hr hcr hwf hprog hlabels
  refine ⟨LT', ?_, hget⟩
  rw [run_add core _ 1 s _ (run_of_stream _ s hp hi hstream), run_succ_of_step (step_of_start rfl rfl)]
  rfl

end Machine
end Sys2Proof
end

