-- ==== Sys2Proof/Proofs/VmCycle.lean ====
section
/-! PROOFS. The VM cycle (32_vm_cycle R160 to R163): in `RUN` with no host event waiting a step is the instruction at
`pc`, or the end of the run past the last one; outside `RUN` the VM's state is touched by a reset only, and `start`
leads from `READY` to `RUN`. -/

namespace Sys2Proof.Machine

section
variable {s : State}

/-- In `RUN` with no host event waiting, a step is a VM step (32_vm_cycle R162). -/
theorem step_of_running (hi : s.inbox = []) (hp : s.phase = .run) : step s = vmStep s := by
  simp only [step, hi, if_pos hp]

theorem vmStep_of_instr {i : Instr} (h : s.P[s.pc]? = some i) : vmStep s = exec i s := by
  simp only [vmStep, fetch, h]

/-- Past the last instruction the run is done (32_vm_cycle R163). -/
theorem vmStep_of_length_le (h : s.P.length ≤ s.pc) : vmStep s = .next (finish s) := by
  simp only [vmStep, fetch, List.getElem?_eq_none h]

/-- In every phase but `READY`, `start` is dropped (32_vm_cycle R160). -/
theorem step_of_dropped_start {rest : List HostEvent} (hi : s.inbox = .start :: rest) (hp : s.phase ≠ .ready) :
    step s = .next { s with inbox := rest } :=
  (step_of_event hi).trans (if_neg hp)

end

/-- Settles O55: outside `RUN` a step that is no reset is the decoder's, or takes an event that writes the phase and the
runtime input at most. -/
theorem vmIsIdleOutsideRun : Obligations.VmIsIdleOutsideRun := by
  intro s t hp hr h
  rcases step_next hr h with ⟨_, hrun, _⟩ | ⟨_, hrun, _⟩ | ⟨_, ht⟩ | ⟨_, ht⟩
  · exact absurd hrun hp
  · exact absurd hrun hp
  · rw [ht]
    exact ⟨rfl, rfl, rfl, rfl, rfl⟩
  · rw [ht]
    exact ⟨rfl, rfl, rfl, rfl, rfl⟩

/-- Settles O48: by whether `pc` addresses an instruction. -/
theorem stepRunsTheInstructionAtPc : Obligations.StepRunsTheInstructionAtPc := by
  intro s hi hp
  rw [step_of_running hi hp]
  exact ⟨fun _ hinstr => vmStep_of_instr hinstr, vmStep_of_length_le⟩

/-- Settles O49: by whether the phase is `READY`. -/
theorem startOnlyFromReady : Obligations.StartOnlyFromReady := fun _ _ hi =>
  ⟨step_of_start hi, step_of_dropped_start hi⟩

end Sys2Proof.Machine
end

