-- ==== Sys2Proof/Proofs/StackFamily.lean ====
section
/-! PROOFS. The stack family (40_stack), by what each instruction finds on the stack: the operand form it reads fails
and the instruction raises, or it splits the stack and the result is written from the parts. `Push`, `Duplicate` and
`Copy` end in the one push they share. -/

namespace Sys2Proof.Machine

section
variable {s : State} {below mid above : List Int} {v : Int}

/-! ### The push -/

theorem pushWord_of_hasRoom (h : hasRoom s.cfg.stackCap s.S.length) :
    pushWord v s = .next { s with S := s.S ++ [v], pc := s.pc + 1 } :=
  if_neg (Bool.eq_false_iff.mp (atCap_eq_false.mpr h))

theorem pushWord_of_not_hasRoom (h : ¬ hasRoom s.cfg.stackCap s.S.length) :
    pushWord v s = .next (runError .stackOverflow s) :=
  if_pos (atCap_of_not_hasRoom h)

/-- An instruction that comes down to a push has the two ends of the push. -/
theorem exec_of_pushWord {i : Instr} (h : exec i s = pushWord v s) :
    (hasRoom s.cfg.stackCap s.S.length → exec i s = .next { s with S := s.S ++ [v], pc := s.pc + 1 }) ∧
      (¬ hasRoom s.cfg.stackCap s.S.length → exec i s = .next (runError .stackOverflow s)) :=
  ⟨fun hroom => h.trans (pushWord_of_hasRoom hroom), fun hfull => h.trans (pushWord_of_not_hasRoom hfull)⟩

/-! ### The instructions -/

theorem exec_duplicate_of_nil (h : s.S = []) : exec .duplicate s = .next (runError .stackUnderflow s) := by
  have hnone : atDepth s.S 0 = none := atDepth_eq_none.mpr (by simp [h])
  simp only [exec, execDuplicate, hnone, raise]

theorem exec_duplicate_of_append (h : s.S = below ++ [v]) : exec .duplicate s = pushWord v s := by
  have htop : atDepth s.S 0 = some v := h ▸ atDepth_split below [] v
  simp only [exec, execDuplicate, htop]

theorem exec_copy_of_neg {n : Int} (h : n < 0) : exec (.copy n) s = .next (runError .indexOutOfRange s) := if_pos h

theorem exec_copy_of_length_le {n : Nat} (h : s.S.length ≤ n) :
    exec (.copy n) s = .next (runError .stackUnderflow s) := by
  have hnone : atDepth s.S n = none := atDepth_eq_none.mpr (Nat.lt_succ_of_le h)
  simp only [exec, execCopy, if_neg (Int.natCast_nonneg n).not_gt, Int.toNat_natCast, hnone, raise]

theorem exec_copy_of_append (h : s.S = below ++ v :: above) : exec (.copy above.length) s = pushWord v s := by
  have hv : atDepth s.S above.length = some v := h ▸ atDepth_split below above v
  simp only [exec, execCopy, if_neg (Int.natCast_nonneg above.length).not_gt, Int.toNat_natCast, hv]

theorem exec_swap_of_length_lt (h : s.S.length < 2) : exec .swap s = .next (runError .stackUnderflow s) := by
  simp only [exec, execSwap, pop2_eq_none.mpr h, raise]

theorem exec_swap_of_append {a b : Int} (h : s.S = below ++ [a, b]) :
    exec .swap s = .next { s with S := below ++ [b, a], pc := s.pc + 1 } := by
  simp only [exec, execSwap, h, pop2_append, advance]

theorem exec_discard_of_nil (h : s.S = []) : exec .discard s = .next (runError .stackUnderflow s) := by
  have hnone : pop1 s.S = none := pop1_eq_none.mpr (by simp [h])
  simp only [exec, execDiscard, hnone, raise]

theorem exec_discard_of_append (h : s.S = below ++ [v]) :
    exec .discard s = .next { s with S := below, pc := s.pc + 1 } := by
  simp only [exec, execDiscard, h, pop1_append, advance]

theorem exec_slide_of_neg {n : Int} (h : n < 0) : exec (.slide n) s = .next (runError .indexOutOfRange s) := if_pos h

theorem exec_slide_of_length_lt {n : Nat} (h : s.S.length < n + 1) :
    exec (.slide n) s = .next (runError .stackUnderflow s) := by
  simp only [exec, execSlide, if_neg (Int.natCast_nonneg n).not_gt, Int.toNat_natCast, slideBy_eq_none.mpr h, raise]

theorem exec_slide_of_append (h : s.S = below ++ mid ++ [v]) :
    exec (.slide mid.length) s = .next { s with S := below ++ [v], pc := s.pc + 1 } := by
  simp only [exec, execSlide, if_neg (Int.natCast_nonneg mid.length).not_gt, Int.toNat_natCast, h, slideBy_split,
    advance]

end

/-- Settles O1: `Push` is the push of its operand. -/
theorem pushPushesItsOperand : Obligations.PushPushesItsOperand := fun _ _ => ⟨rfl, exec_of_pushWord rfl⟩

/-- Settles O2: by whether the stack is empty. -/
theorem duplicateCopiesTheTop : Obligations.DuplicateCopiesTheTop := fun _ =>
  ⟨rfl, exec_duplicate_of_nil, fun _ _ h => exec_of_pushWord (exec_duplicate_of_append h)⟩

/-- Settles O3: by whether the operand is negative, too deep, or the depth of an element. -/
theorem copyPushesTheElementAtDepth : Obligations.CopyPushesTheElementAtDepth := fun _ =>
  ⟨fun _ => rfl, fun _ => exec_copy_of_neg, fun _ => exec_copy_of_length_le,
    fun _ _ _ h => exec_of_pushWord (exec_copy_of_append h)⟩

/-- Settles O4: by whether two elements are held. -/
theorem swapExchangesTheTopTwo : Obligations.SwapExchangesTheTopTwo := fun _ =>
  ⟨rfl, exec_swap_of_length_lt, fun _ _ _ => exec_swap_of_append⟩

/-- Settles O5: by whether the stack is empty. -/
theorem discardDropsTheTop : Obligations.DiscardDropsTheTop := fun _ =>
  ⟨rfl, exec_discard_of_nil, fun _ _ => exec_discard_of_append⟩

/-- Settles O6: by whether the operand is negative, too large for the stack, or the length of a part below the top. -/
theorem slideRemovesBelowTheTop : Obligations.SlideRemovesBelowTheTop := fun _ =>
  ⟨fun _ => rfl, fun _ => exec_slide_of_neg, fun _ => exec_slide_of_length_lt, fun _ _ _ => exec_slide_of_append⟩

end Sys2Proof.Machine
end

