-- ==== Sys2Proof/Proofs/ArithFamily.lean ====
section
/-! PROOFS. The arithmetic family (41_arithmetic). `Add`, `Sub` and `Mul` are the binary operation at one function each,
`Div` and `Mod` the division; what is left is integer arithmetic: `MIN / -1` wraps to `MIN`, and the remainders have the
size and the sign R205 gives them. -/

namespace Sys2Proof.Machine

section
variable {s : State} {below : List Int} {a b : Int} {f : Int → Int → Word}

/-! ### The two shared operations -/

theorem binary_of_length_lt (h : s.S.length < 2) : binary f s = .next (runError .stackUnderflow s) := by
  simp only [binary, pop2_eq_none.mpr h, raise]

theorem binary_of_append (hS : s.S = below ++ [a, b]) :
    binary f s = .next { s with S := below ++ [f a b], pc := s.pc + 1 } := by
  simp only [binary, hS, pop2_append, advance]

theorem dividing_of_length_lt (h : s.S.length < 2) : dividing f s = .next (runError .stackUnderflow s) := by
  simp only [dividing, pop2_eq_none.mpr h, raise]

theorem dividing_of_zero (hS : s.S = below ++ [a, b]) (hb : b = 0) :
    dividing f s = .next (runError .divisionByZero s) := by
  simp only [dividing, hS, pop2_append, if_pos hb, raise]

theorem dividing_of_ne_zero (hS : s.S = below ++ [a, b]) (hb : b ≠ 0) :
    dividing f s = .next { s with S := below ++ [f a b], pc := s.pc + 1 } := by
  simp only [dividing, hS, pop2_append, if_neg hb, advance]

/-! ### `Div` and `Mod` on a divisor that is not zero -/

theorem exec_div_of_ne_zero (hS : s.S = below ++ [a, b]) (hb : b ≠ 0) :
    exec .div s = .next { s with S := below ++ [wrap s.cfg.W (quotient s.cfg.divmod a b)], pc := s.pc + 1 } :=
  dividing_of_ne_zero hS hb

theorem exec_mod_of_ne_zero (hS : s.S = below ++ [a, b]) (hb : b ≠ 0) :
    exec .mod s = .next { s with S := below ++ [remainder s.cfg.divmod a b], pc := s.pc + 1 } :=
  dividing_of_ne_zero hS hb

/-! ### The quotient `MIN / -1` -/

/-- Dividing by `-1` negates under either rounding: the division is exact. -/
theorem quotient_neg_one (m : DivMod) (a : Int) : quotient m a (-1) = -a := by
  cases m with
  | truncating => rw [quotient, Int.tdiv_neg, Int.tdiv_one]
  | flooring => rw [quotient, ← Int.neg_fdiv_neg, neg_neg, Int.fdiv_one]

/-- `-MIN` is one more than `MAX`, and `2 ^ W` away from `MIN`. -/
theorem wrap_neg_minWord {W : Nat} (hW : 1 ≤ W) : wrap W (-minWord W) = minWord W := by
  obtain ⟨_, _, hunique⟩ := wrapIsTheCongruentWord W (-minWord W) hW
  have hword : isWord W (minWord W) := isWord_iff.mpr ⟨le_rfl, neg_lt_self (halfRange_pos W)⟩
  have hdvd : ((2 ^ W : Nat) : Int) ∣ minWord W - -minWord W :=
    ⟨-1, by rw [two_pow_eq_two_mul_halfRange hW]; ring⟩
  exact (hunique _ hword hdvd).symm

/-! ### The size and the sign of a remainder -/

theorem natAbs_tmod_lt (a : Int) (hb : b ≠ 0) : (Int.tmod a b).natAbs < b.natAbs := by
  rw [Int.natAbs_tmod]
  exact Nat.mod_lt _ (Int.natAbs_pos.mpr hb)

theorem tmod_nonpos (b : Int) (ha : a ≤ 0) : Int.tmod a b ≤ 0 := by
  have h := Int.tmod_nonneg b (neg_nonneg.mpr ha)
  rwa [Int.neg_tmod, neg_nonneg] at h

/-- The flooring remainder of a negative divisor mirrors that of its negation. -/
theorem fmod_bounds_of_neg (a : Int) (hb : b < 0) : b < Int.fmod a b ∧ Int.fmod a b ≤ 0 := by
  have h0 := Int.fmod_nonneg_of_pos (-a) (neg_pos.mpr hb)
  have h1 := Int.fmod_lt_of_pos (-a) (neg_pos.mpr hb)
  rw [Int.neg_fmod_neg] at h0 h1
  exact ⟨neg_lt_neg_iff.mp h1, neg_nonneg.mp h0⟩

theorem natAbs_fmod_lt (a : Int) (hb : b ≠ 0) : (Int.fmod a b).natAbs < b.natAbs := by
  rcases lt_or_gt_of_ne hb with hneg | hpos
  · obtain ⟨h1, h0⟩ := fmod_bounds_of_neg a hneg
    omega
  · exact Int.natAbs_lt_natAbs_of_nonneg_of_lt (Int.fmod_nonneg_of_pos a hpos) (Int.fmod_lt_of_pos a hpos)

end

/-- Settles O7: each of the three is the binary operation, by whether two elements are held. -/
theorem addSubMulWrapTheExactResult : Obligations.AddSubMulWrapTheExactResult := fun _ =>
  ⟨rfl, rfl, rfl, fun h => ⟨binary_of_length_lt h, binary_of_length_lt h, binary_of_length_lt h⟩,
    fun _ _ _ hS => ⟨binary_of_append hS, binary_of_append hS, binary_of_append hS⟩⟩

/-- Settles O8: by whether two elements are held, whether the divisor is zero, and the rounding. -/
theorem divPushesTheQuotient : Obligations.DivPushesTheQuotient := by
  intro s
  refine ⟨rfl, dividing_of_length_lt, fun below a b hS =>
    ⟨dividing_of_zero hS, fun hb hm => ?_, fun hb hm => ?_, fun ha hb hW => ?_⟩⟩
  · rw [exec_div_of_ne_zero hS hb, hm, quotient]
  · rw [exec_div_of_ne_zero hS hb, hm, quotient]
  · subst ha hb
    rw [exec_div_of_ne_zero hS (by decide), quotient_neg_one, wrap_neg_minWord hW]

/-- Settles O9: by whether two elements are held, whether the divisor is zero, and the rounding. -/
theorem modPushesTheRemainder : Obligations.ModPushesTheRemainder := by
  intro s
  refine ⟨rfl, dividing_of_length_lt, fun below a b hS => ⟨dividing_of_zero hS, fun hb hm => ?_, fun hb hm => ?_⟩⟩
  · refine ⟨?_, natAbs_tmod_lt a hb, (Int.mul_tdiv_add_tmod a b).symm, Int.tmod_nonneg b, tmod_nonpos b⟩
    rw [exec_mod_of_ne_zero hS hb, hm, remainder]
  · refine ⟨?_, natAbs_fmod_lt a hb, (Int.mul_fdiv_add_fmod a b).symm, Int.fmod_nonneg_of_pos a,
      fun hneg => (fmod_bounds_of_neg a hneg).2⟩
    rw [exec_mod_of_ne_zero hS hb, hm, remainder]

end Sys2Proof.Machine
end

