-- ==== Sys2Proof/Proofs/HeapFamily.lean ====
section
/-! PROOFS. The heap family (42_heap): `Store` by its operands and the write of the cell, `Retrieve` by its operand and
the read of the cell. What the two answer when they succeed stands with the memories (Proofs/Memory.lean). -/

namespace Sys2Proof.Machine

section
variable {s : State} {below : List Int} {a v : Int}

/-! ### `Store` -/

theorem exec_store_of_length_lt (h : s.S.length < 2) : exec .store s = .next (runError .stackUnderflow s) := by
  simp only [exec, execStore, pop2_eq_none.mpr h, raise]

theorem exec_store_of_heapRoom (hS : s.S = below ++ [a, v]) (hroom : heapRoom s a) :
    exec .store s = .next { s with S := below, H := IntMap.set s.H a v, pc := s.pc + 1 } :=
  exec_store_of_memWrite hS (memWrite_eq_some.mpr ⟨hroom, rfl⟩)

theorem exec_store_of_not_heapRoom (hS : s.S = below ++ [a, v]) (hfull : ¬ heapRoom s a) :
    exec .store s = .next (runError .heapCapacity s) := by
  simp only [exec, execStore, hS, pop2_append, memWrite_eq_none.mpr hfull, raise]

/-! ### `Retrieve` -/

theorem exec_retrieve_of_nil (h : s.S = []) : exec .retrieve s = .next (runError .stackUnderflow s) := by
  have hnone : pop1 s.S = none := pop1_eq_none.mpr (by simp [h])
  simp only [exec, execRetrieve, hnone, raise]

theorem exec_retrieve_of_memRead_none (hS : s.S = below ++ [a]) (hv : memRead s.cfg s.H a = none) :
    exec .retrieve s = .next (runError .heapKeyError s) := by
  simp only [exec, execRetrieve, hS, pop1_append, hv, raise]

/-! ### The read of an unwritten cell, by `HEAP_DEFAULT` (20_memory R66) -/

theorem memRead_unwritten_fault (ha : IntMap.get? s.H a = none) (hd : s.cfg.heapDefault = .fault) :
    memRead s.cfg s.H a = none :=
  (memRead_unwritten ha).trans (if_pos hd)

theorem memRead_unwritten_zero (ha : IntMap.get? s.H a = none) (hd : s.cfg.heapDefault = .zero) :
    memRead s.cfg s.H a = some 0 :=
  (memRead_unwritten ha).trans (if_neg (by simp [hd]))

end

/-- Settles O11: by whether two elements are held and whether the heap has room for the cell; the heap after it is the
heap before with that cell set. -/
theorem storeWritesOneCell : Obligations.StoreWritesOneCell := fun s =>
  ⟨rfl, exec_store_of_length_lt, fun _ a v hS =>
    ⟨fun hroom => ⟨IntMap.set s.H a v, exec_store_of_heapRoom hS hroom, IntMap.get?_set s.H a v⟩,
      exec_store_of_not_heapRoom hS⟩⟩

/-- Settles O12: by whether the stack is empty, whether the cell is written, and `HEAP_DEFAULT`. -/
theorem retrieveReadsOneCell : Obligations.RetrieveReadsOneCell := fun _ =>
  ⟨rfl, exec_retrieve_of_nil, fun _ _ hS =>
    ⟨fun _ hv => exec_retrieve_of_memRead hS (memRead_written hv),
      fun ha hd => exec_retrieve_of_memRead_none hS (memRead_unwritten_fault ha hd),
      fun ha hd => exec_retrieve_of_memRead hS (memRead_unwritten_zero ha hd)⟩⟩

end Sys2Proof.Machine
end

