-- ==== Sys2Proof/Proofs/FlowFamily.lean ====
section
/-! PROOFS. The flow family (43_flow). `Call`, `Jump` and `Return` by what they find in `C` and in `LT`; the conditional
jump once, for any test: it goes to the label, goes on, or raises. The laws of R238, R184 and R185 follow from what the
two instructions of each pair answer. -/

namespace Sys2Proof.Machine

section
variable {s : State} {l : Int}

/-! ### `Call`, `Jump` and `Return` -/

theorem exec_call_of_not_hasRoom (h : ¬ hasRoom s.cfg.callCap s.C.length) :
    exec (.call l) s = .next (runError .callStackOverflow s) :=
  if_pos (atCap_of_not_hasRoom h)

theorem exec_call_of_unresolved (h : hasRoom s.cfg.callCap s.C.length) (hl : IntMap.get? s.LT l = none) :
    exec (.call l) s = .next (runError .unresolvedLabel s) := by
  simp only [exec, execCall, atCap_eq_false.mpr h, Bool.false_eq_true, if_false, hl, raise]

theorem exec_call_of_label {j : Nat} (h : hasRoom s.cfg.callCap s.C.length) (hl : IntMap.get? s.LT l = some j) :
    exec (.call l) s = .next { s with C := s.C ++ [s.pc + 1], pc := j } := by
  simp only [exec, execCall, atCap_eq_false.mpr h, Bool.false_eq_true, if_false, hl]

theorem exec_jump_of_unresolved (hl : IntMap.get? s.LT l = none) :
    exec (.jump l) s = .next (runError .unresolvedLabel s) := by
  simp only [exec, execJump, hl, raise]

theorem exec_jump_of_label {j : Nat} (hl : IntMap.get? s.LT l = some j) :
    exec (.jump l) s = .next { s with pc := j } := by
  simp only [exec, execJump, hl]

theorem exec_ret_of_nil (h : s.C = []) : exec .ret s = .next (runError .callStackUnderflow s) := by
  have hnone : pop1 s.C = none := pop1_eq_none.mpr (by simp [h])
  simp only [exec, execRet, hnone, raise]

theorem exec_ret_of_append {below : List Nat} {r : Nat} (h : s.C = below ++ [r]) :
    exec .ret s = .next { s with C := below, pc := r } := by
  simp only [exec, execRet, h, pop1_append]

/-! ### The conditional jump -/

section
variable {test : Int → Bool} {below : List Int} {x : Int}

theorem jumpIf_of_nil (h : s.S = []) : jumpIf test l s = .next (runError .stackUnderflow s) := by
  have hnone : pop1 s.S = none := pop1_eq_none.mpr (by simp [h])
  simp only [jumpIf, hnone, raise]

theorem jumpIf_of_label {j : Nat} (hS : s.S = below ++ [x]) (hx : test x = true) (hl : IntMap.get? s.LT l = some j) :
    jumpIf test l s = .next { s with S := below, pc := j } := by
  simp only [jumpIf, hS, pop1_append, hx, hl]

/-- An unresolved label raises when the jump is taken, and always under `LABEL_RESOLVE = on_execute` (43_flow R230). -/
theorem jumpIf_of_unresolved (hS : s.S = below ++ [x]) (hl : IntMap.get? s.LT l = none)
    (h : test x = true ∨ s.cfg.labelResolve = .onExecute) :
    jumpIf test l s = .next (runError .unresolvedLabel s) := by
  rcases h with hx | hr
  · simp only [jumpIf, hS, pop1_append, hx, hl, raise]
  · cases hx : test x <;> simp only [jumpIf, hS, pop1_append, hx, hl, hr, raise]

/-- A jump not taken pops and advances when its label is not looked up, or is found. -/
theorem jumpIf_of_not_taken (hS : s.S = below ++ [x]) (hx : test x = false)
    (h : s.cfg.labelResolve = .onTaken ∨ IntMap.get? s.LT l ≠ none) :
    jumpIf test l s = .next { s with S := below, pc := s.pc + 1 } := by
  cases hl : IntMap.get? s.LT l with
  | some j => simp only [jumpIf, hS, pop1_append, hx, hl, advance]
  | none =>
    have hr : s.cfg.labelResolve = .onTaken := h.resolve_right (· hl)
    simp only [jumpIf, hS, pop1_append, hx, hl, hr, advance]

end

/-! ### The pairs that undo each other -/

/-- Returning to the entry a resolved call left resumes after the call (43_flow R238). -/
theorem exec_ret_of_call {t u : State} (hroom : hasRoom s.cfg.callCap s.C.length) (hl : IntMap.get? s.LT l ≠ none)
    (ht : exec (.call l) s = .next t) (hC : u.C = t.C) : exec .ret u = .next { u with C := s.C, pc := s.pc + 1 } := by
  obtain ⟨j, hj⟩ := Option.ne_none_iff_exists'.mp hl
  obtain rfl := Host.Outcome.next.inj ((exec_call_of_label hroom hj).symm.trans ht)
  exact exec_ret_of_append hC

/-- A discard drops the word just pushed (40_stack R185). -/
theorem exec_discard_of_push {t : State} {n : Int} (hroom : hasRoom s.cfg.stackCap s.S.length)
    (ht : exec (.push n) s = .next t) : exec .discard t = .next { s with pc := s.pc + 2 } := by
  obtain rfl := Host.Outcome.next.inj ((pushWord_of_hasRoom hroom).symm.trans ht)
  exact exec_discard_of_append rfl

/-- A second swap restores the order of the top two (40_stack R184). -/
theorem exec_swap_of_swap {t : State} (hlen : 2 ≤ s.S.length) (ht : exec .swap s = .next t) :
    exec .swap t = .next { s with pc := s.pc + 2 } := by
  obtain ⟨⟨below, a, b⟩, hpop⟩ := Option.ne_none_iff_exists'.mp fun hnone => hlen.not_gt (pop2_eq_none.mp hnone)
  have hS : s.S = below ++ [a, b] := pop2_eq_some.mp hpop
  obtain rfl := Host.Outcome.next.inj ((exec_swap_of_append hS).symm.trans ht)
  rw [exec_swap_of_append rfl, ← hS]

end

/-- Settles O14: nothing is left of a mark at run time but the step to the next instruction. -/
theorem markOnlyAdvances : Obligations.MarkOnlyAdvances := fun _ _ => ⟨rfl, rfl⟩

/-- Settles O15: by whether `C` has room and what `LT` holds for the label. -/
theorem callSavesTheReturnAddress : Obligations.CallSavesTheReturnAddress := fun _ _ =>
  ⟨rfl, exec_call_of_not_hasRoom, exec_call_of_unresolved, fun _ => exec_call_of_label⟩

/-- Settles O16: by what `LT` holds for the label. -/
theorem jumpGoesToTheLabel : Obligations.JumpGoesToTheLabel := fun _ _ =>
  ⟨rfl, exec_jump_of_unresolved, fun _ => exec_jump_of_label⟩

/-- Settles O17: each of the two is the conditional jump at its test, by whether the stack is empty, the test, the label
and `LABEL_RESOLVE`. -/
theorem conditionalJumpsTestAndPop : Obligations.ConditionalJumpsTestAndPop := by
  refine fun s l => ⟨rfl, rfl, fun hS => ⟨jumpIf_of_nil hS, jumpIf_of_nil hS⟩, fun below x hS =>
    ⟨fun hx => ?_, fun hx => ?_, fun h => ⟨fun hx => ?_, fun hx => ?_⟩, fun hr hl => ?_⟩⟩
  · have htest : testZero x = true := decide_eq_true hx
    exact ⟨fun _ => jumpIf_of_label hS htest, fun hl => jumpIf_of_unresolved hS hl (.inl htest)⟩
  · have htest : testNegative x = true := decide_eq_true hx
    exact ⟨fun _ => jumpIf_of_label hS htest, fun hl => jumpIf_of_unresolved hS hl (.inl htest)⟩
  · exact jumpIf_of_not_taken hS (decide_eq_false hx) h
  · exact jumpIf_of_not_taken hS (decide_eq_false hx.not_gt) h
  · exact ⟨jumpIf_of_unresolved hS hl (.inr hr), jumpIf_of_unresolved hS hl (.inr hr)⟩

/-- Settles O18: by whether `C` is empty. -/
theorem returnGoesToTheSavedAddress : Obligations.ReturnGoesToTheSavedAddress := fun _ =>
  ⟨rfl, exec_ret_of_nil, fun _ _ => exec_ret_of_append⟩

/-- Settles O19: the end of the run is written over the state, `pc` not among what it writes. -/
theorem endHaltsSuccessfully : Obligations.EndHaltsSuccessfully := fun _ => ⟨rfl, rfl⟩

/-- Settles O20: one law for each of the three pairs. -/
theorem pairsThatUndoEachOther : Obligations.PairsThatUndoEachOther :=
  ⟨fun _ _ _ _ => exec_ret_of_call, fun _ _ _ => exec_discard_of_push, fun _ _ => exec_swap_of_swap⟩

end Sys2Proof.Machine
end

