-- ==== Sys2Proof/Proofs/DecimalNumbers.lean ====
section
/-! PROOFS. The decimal numbers of 44_io: `dec` writes the one text R264 admits, since digits with no leading zero are
determined by their value; the parser reads the lines of R265's grammar and no others. -/

namespace Sys2Proof.Machine

section
variable {ds : List Nat}

/-! ### The decimal text -/

theorem decimalValue_append_singleton (ds : List Nat) (d : Nat) :
    decimalValue (ds ++ [d]) = 10 * decimalValue ds + d := by
  simp [decimalValue]

theorem decimalValue_digits (n : Nat) : decimalValue (digits 10 n) = n := digits_value (by decide) n

/-- Decimal digits with no leading zero are those of the number they denote: by the last digit, the others being the
digits of the quotient. -/
theorem digits_decimalValue (hlt : ∀ d ∈ ds, d < 10) (hhead : ds.head? ≠ some 0) :
    digits 10 (decimalValue ds) = ds := by
  induction ds using List.reverseRecOn with
  | nil => exact digits_zero 10
  | append_singleton ds d ih =>
    have hd : d < 10 := hlt d (by simp)
    have hds : digits 10 (decimalValue ds) = ds :=
      ih (fun e he => hlt e (by simp [he])) fun h => hhead (by simp [h])
    have hpos : 0 < 10 * decimalValue ds + d := by
      by_contra h0
      obtain ⟨hv, rfl⟩ : decimalValue ds = 0 ∧ d = 0 := by omega
      rw [hv, digits_zero] at hds
      exact hhead (by simp [← hds])
    have hdiv : (10 * decimalValue ds + d) / 10 = decimalValue ds := by omega
    have hmod : (10 * decimalValue ds + d) % 10 = d := by omega
    rw [decimalValue_append_singleton, digits_pos (by decide) hpos, hdiv, hmod, hds]

theorem isDecimal_digits {n : Nat} (hn : 0 < n) : isDecimal (digits 10 n) :=
  ⟨digits_ne_nil (by decide) hn, digits_lt (by decide) n⟩

theorem dec_of_pos {v : Int} (hv : 0 < v) : dec v = (digits 10 v.natAbs).map digitChar := by
  rw [dec, if_neg hv.ne', if_neg hv.not_gt]

theorem dec_of_neg {v : Int} (hv : v < 0) : dec v = 45 :: (digits 10 v.natAbs).map digitChar := by
  rw [dec, if_neg hv.ne, if_pos hv]

theorem isDecText_dec (v : Int) : isDecText (dec v) v := by
  have hval : decimalValue (digits 10 v.natAbs) = v.natAbs := decimalValue_digits v.natAbs
  have hhead : (digits 10 v.natAbs).head? ≠ some 0 := digits_head (by decide)
  rcases lt_trichotomy v 0 with hv | rfl | hv
  · exact .inr ⟨_, isDecimal_digits (by omega), hhead, .inr ⟨hv, dec_of_neg hv, by omega⟩⟩
  · exact .inl ⟨rfl, rfl⟩
  · exact .inr ⟨_, isDecimal_digits (by omega), hhead, .inl ⟨hv, dec_of_pos hv, by omega⟩⟩

theorem eq_dec_of_isDecText {text : List Int} {v : Int} (h : isDecText text v) : text = dec v := by
  rcases h with ⟨rfl, rfl⟩ | ⟨ds, ⟨_, hlt⟩, hhead, ⟨hv, rfl, hval⟩ | ⟨hv, rfl, hval⟩⟩
  · rfl
  · have hnat : v.natAbs = decimalValue ds := by omega
    rw [dec_of_pos hv, hnat, digits_decimalValue hlt hhead]
    rfl
  · have hnat : v.natAbs = decimalValue ds := by omega
    rw [dec_of_neg hv, hnat, digits_decimalValue hlt hhead]
    rfl

/-! ### The line grammar -/

theorem parseDigits_map_add (hds : isDecimal ds) : parseDigits (ds.map (· + 48)) = some (decimalValue ds) := by
  obtain ⟨hne, hlt⟩ := hds
  have hall : (ds.map (· + 48)).all isDigit = true := by
    simp only [List.all_map, List.all_eq_true, Function.comp_apply, isDigit, decide_eq_true_eq]
    intro d hd
    have := hlt d hd
    omega
  cases ds with
  | nil => exact absurd rfl hne
  | cons d ds =>
    refine (if_pos hall).trans ?_
    simp [decimalValue, List.foldl_map]

/-- What the digit parser reads are the codes of decimal digits. -/
theorem parseDigits_eq_some {cs : List Nat} {m : Nat} :
    parseDigits cs = some m ↔ ∃ ds, isDecimal ds ∧ cs = ds.map (· + 48) ∧ m = decimalValue ds := by
  refine ⟨fun h => ?_, ?_⟩
  · have hcodes : cs ≠ [] ∧ ∀ ch ∈ cs, 48 ≤ ch ∧ ch ≤ 57 := by
      unfold parseDigits at h
      split at h
      · cases h
      · split_ifs at h with hall
        exact ⟨by simp, by simpa [isDigit] using hall⟩
    obtain ⟨hne, hcode⟩ := hcodes
    have hds : isDecimal (cs.map (· - 48)) := by
      refine ⟨by simpa using hne, fun d hd => ?_⟩
      obtain ⟨ch, hch, rfl⟩ := List.mem_map.mp hd
      have := hcode ch hch
      omega
    have hcs : cs = (cs.map (· - 48)).map (· + 48) := by
      rw [List.map_map]
      exact (List.map_id cs).symm.trans
        (List.map_congr_left fun ch hch => (Nat.sub_add_cancel (hcode ch hch).1).symm)
    rw [hcs, parseDigits_map_add hds] at h
    exact ⟨_, hds, hcs, (Option.some.inj h).symm⟩
  · rintro ⟨ds, hds, rfl, rfl⟩
    exact parseDigits_map_add hds

/-- No digit has the code of a sign. -/
theorem head?_map_add_ne {c : Nat} (hc : c < 48) : (ds.map (· + 48)).head? ≠ some c := by
  cases ds with
  | nil => simp
  | cons d ds =>
    simp only [List.map_cons, List.head?_cons, ne_eq, Option.some.injEq]
    omega

/-! A line after a `+`, after a `-`, and with neither in front. -/

theorem parseLine_of_plus (cs : List Nat) : parseLine (43 :: cs) = (parseDigits cs).map fun (m : Nat) => (m : Int) :=
  rfl

theorem parseLine_of_minus (cs : List Nat) : parseLine (45 :: cs) = (parseDigits cs).map fun (m : Nat) => -(m : Int) :=
  rfl

theorem parseLine_of_unsigned {line : List Nat} (hplus : line.head? ≠ some 43) (hminus : line.head? ≠ some 45) :
    parseLine line = (parseDigits line).map fun (m : Nat) => (m : Int) := by
  cases line with
  | nil => rfl
  | cons ch cs => rw [parseLine, if_neg (by simpa using hplus), if_neg (by simpa using hminus)]

/-- What a digit run, signed by `f`, is read as. -/
theorem map_parseDigits_eq_some {f : Nat → Int} {cs : List Nat} {n : Int} :
    (parseDigits cs).map f = some n ↔ ∃ ds, isDecimal ds ∧ cs = ds.map (· + 48) ∧ n = f (decimalValue ds) := by
  simp only [Option.map_eq_some_iff, parseDigits_eq_some]
  constructor
  · rintro ⟨_, ⟨ds, hds, hcs, rfl⟩, rfl⟩
    exact ⟨ds, hds, hcs, rfl⟩
  · rintro ⟨ds, hds, hcs, rfl⟩
    exact ⟨_, ⟨ds, hds, hcs, rfl⟩, rfl⟩

theorem lineDenotes_of_parseLine {line : List Nat} {n : Int} (h : parseLine line = some n) : lineDenotes line n := by
  by_cases hplus : line.head? = some 43
  · obtain ⟨cs, rfl⟩ := List.head?_eq_some_iff.mp hplus
    obtain ⟨ds, hds, rfl, hn⟩ := map_parseDigits_eq_some.mp h
    exact ⟨ds, hds, .inr (.inl ⟨rfl, hn⟩)⟩
  by_cases hminus : line.head? = some 45
  · obtain ⟨cs, rfl⟩ := List.head?_eq_some_iff.mp hminus
    obtain ⟨ds, hds, rfl, hn⟩ := map_parseDigits_eq_some.mp h
    exact ⟨ds, hds, .inr (.inr ⟨rfl, hn⟩)⟩
  · rw [parseLine_of_unsigned hplus hminus] at h
    obtain ⟨ds, hds, hline, hn⟩ := map_parseDigits_eq_some.mp h
    exact ⟨ds, hds, .inl ⟨hline, hn⟩⟩

theorem parseLine_of_lineDenotes {line : List Nat} {n : Int} (h : lineDenotes line n) : parseLine line = some n := by
  obtain ⟨ds, hds, ⟨rfl, rfl⟩ | ⟨rfl, rfl⟩ | ⟨rfl, rfl⟩⟩ := h
  · rw [parseLine_of_unsigned (head?_map_add_ne (by decide)) (head?_map_add_ne (by decide)), parseDigits_map_add hds]
    rfl
  · rw [parseLine_of_plus, parseDigits_map_add hds]
    rfl
  · rw [parseLine_of_minus, parseDigits_map_add hds]
    rfl

end

/-- Settles O24: `dec` writes a decimal text, and the digits of a decimal text are determined by its value. -/
theorem decIsTheDecimalText : Obligations.DecIsTheDecimalText := fun v _ =>
  ⟨fun h => h ▸ isDecText_dec v, eq_dec_of_isDecText⟩

/-- Settles O25: by the character the line begins with, and then by the form the grammar gives it. -/
theorem parseFollowsTheGrammar : Obligations.ParseFollowsTheGrammar := fun _ _ =>
  ⟨lineDenotes_of_parseLine, parseLine_of_lineDenotes⟩

end Sys2Proof.Machine
end

