-- ==== Sys2Proof/Proofs/IoFamily.lean ====
section
/-! PROOFS. The I/O family (44_io). `OutChar` and `OutNum` are the output at one text each; `InChar` and `InNum` by what
has been delivered, and, once they have a value, by the store they share. After an input instruction's error no step
reads `IN`. -/

namespace Sys2Proof.Machine

section
variable {s : State} {below : List Int} {a v : Int}

/-! ### The output -/

section
variable {text : Int → List Int}

theorem output_of_nil (h : s.S = []) : output text s = .next (runError .stackUnderflow s) := by
  have hnone : pop1 s.S = none := pop1_eq_none.mpr (by simp [h])
  simp only [output, hnone, raise]

theorem output_of_append (h : s.S = below ++ [v]) :
    output text s = .next { s with S := below, OUT := s.OUT ++ text v, pc := s.pc + 1 } := by
  simp only [output, h, pop1_append, emit, advance]

end

/-! ### The store of an input instruction -/

section
variable {rest : List Nat}

theorem storeInput_of_nil (h : s.S = []) : storeInput v rest s = .next (inputError .stackUnderflow s) := by
  have hnone : pop1 s.S = none := pop1_eq_none.mpr (by simp [h])
  simp only [storeInput, hnone, raiseInput]

theorem storeInput_of_not_heapRoom (hS : s.S = below ++ [a]) (hfull : ¬ heapRoom s a) :
    storeInput v rest s = .next (inputError .heapCapacity s) := by
  simp only [storeInput, hS, pop1_append, memWrite_eq_none.mpr hfull, raiseInput]

theorem storeInput_of_heapRoom (hS : s.S = below ++ [a]) (hroom : heapRoom s a) :
    storeInput v rest s =
      .next { s with
        S := below, H := IntMap.set s.H a v, IN := { s.IN with chars := rest }, pc := s.pc + 1 } := by
  have hH : memWrite s.cfg s.H a v = some (IntMap.set s.H a v) := memWrite_eq_some.mpr ⟨hroom, rfl⟩
  simp only [storeInput, hS, pop1_append, hH, advance]

/-- With the address on the stack the store writes that one cell, or the heap is full. -/
theorem storeInput_of_append (hS : s.S = below ++ [a]) :
    (heapRoom s a →
      ∃ H', storeInput v rest s =
          .next { s with S := below, H := H', IN := { s.IN with chars := rest }, pc := s.pc + 1 } ∧
        ∀ x, IntMap.get? H' x = if x = a then some v else IntMap.get? s.H x) ∧
      (¬ heapRoom s a → storeInput v rest s = .next (inputError .heapCapacity s)) :=
  ⟨fun hroom => ⟨IntMap.set s.H a v, storeInput_of_heapRoom hS hroom, IntMap.get?_set s.H a v⟩,
    storeInput_of_not_heapRoom hS⟩

end

/-! ### `InChar` -/

theorem exec_inChar_of_waiting (hIN : s.IN.chars = []) (hopen : s.IN.ended = false) : exec .inChar s = .next s := by
  simp only [exec, execInChar, hIN, hopen, Bool.false_eq_true, if_false]

theorem exec_inChar_of_exhausted (hIN : s.IN.chars = []) (hend : s.IN.ended = true) :
    exec .inChar s = .next (inputError .inputExhausted s) := by
  simp only [exec, execInChar, hIN, hend, if_true, raiseInput]

theorem exec_inChar_of_char {ch : Nat} {rest : List Nat} (hIN : s.IN.chars = ch :: rest) :
    exec .inChar s = storeInput (ch : Int) rest s := by
  simp only [exec, execInChar, hIN]

/-! ### `InNum` -/

theorem exec_inNum_of_waiting (hIN : 10 ∉ s.IN.chars) (hopen : s.IN.ended = false) : exec .inNum s = .next s := by
  simp only [exec, execInNum, splitLine_eq_none.mpr hIN, hopen, Bool.false_eq_true, if_false]

theorem exec_inNum_of_exhausted (hIN : 10 ∉ s.IN.chars) (hend : s.IN.ended = true) :
    exec .inNum s = .next (inputError .inputExhausted s) := by
  simp only [exec, execInNum, splitLine_eq_none.mpr hIN, hend, if_true, raiseInput]

section
variable {line rest : List Nat} (hIN : s.IN.chars = line ++ 10 :: rest) (hline : 10 ∉ line)
include hIN hline

theorem exec_inNum_of_no_number (h : ∀ n, ¬ lineDenotes line n) :
    exec .inNum s = .next (inputError .parseError s) := by
  have hnone : parseLine line = none :=
    Option.eq_none_iff_forall_ne_some.mpr fun n hn => h n (lineDenotes_of_parseLine hn)
  simp only [exec, execInNum, hIN, splitLine_append hline, hnone, raiseInput]

theorem exec_inNum_of_not_isWord {n : Int} (hn : lineDenotes line n) (hw : ¬ isWord s.cfg.W n) :
    exec .inNum s = .next (inputError .parseError s) := by
  simp only [exec, execInNum, hIN, splitLine_append hline, parseLine_of_lineDenotes hn, if_neg hw, raiseInput]

theorem exec_inNum_of_isWord {n : Int} (hn : lineDenotes line n) (hw : isWord s.cfg.W n) :
    exec .inNum s = storeInput n rest s := by
  simp only [exec, execInNum, hIN, splitLine_append hline, parseLine_of_lineDenotes hn, if_pos hw]

end

end

/-- Settles O21: each of the two is the output at its text, by whether the stack is empty; `dec` is a decimal text by
O24. -/
theorem outputPopsAndEmits : Obligations.OutputPopsAndEmits := fun _ =>
  ⟨rfl, rfl, fun h => ⟨output_of_nil h, output_of_nil h⟩,
    fun _ v h => ⟨output_of_append h, dec v, isDecText_dec v, output_of_append h⟩⟩

/-- Settles O22: by whether a character or the end of the input is delivered; a character goes to the store. -/
theorem inCharStoresOneCharacter : Obligations.InCharStoresOneCharacter := by
  refine fun s => ⟨rfl, exec_inChar_of_waiting, exec_inChar_of_exhausted, fun ch rest hIN => ?_⟩
  rw [exec_inChar_of_char hIN]
  exact ⟨storeInput_of_nil, fun _ _ => storeInput_of_append⟩

/-- Settles O23: by whether a line or the end of the input is delivered, and by what the line denotes; a word goes to
the store. -/
theorem inNumStoresTheNumberOfALine : Obligations.InNumStoresTheNumberOfALine := by
  refine fun s => ⟨rfl, exec_inNum_of_waiting, exec_inNum_of_exhausted, fun line rest hIN hline =>
    ⟨exec_inNum_of_no_number hIN hline, fun n => exec_inNum_of_not_isWord hIN hline, fun n hn hw hS => ?_,
      fun n below a hn hw hS => ?_⟩⟩
  · exact (exec_inNum_of_isWord hIN hline hn hw).trans (storeInput_of_nil hS)
  · rw [exec_inNum_of_isWord hIN hline hn hw]
    exact storeInput_of_append hS

/-- Settles O33: a reset replaces `IN` in both states by the same; any other step takes the waiting event, if any, and
changes nothing else (O32). -/
theorem nothingReadsTheInputAfterAnError : Obligations.NothingReadsTheInputAfterAnError := by
  intro s x hp
  by_cases hreset : s.inbox.head? = some .reset
  · obtain ⟨rest, hi⟩ := List.head?_eq_some_iff.mp hreset
    exact ⟨_, _, step_of_event hi, step_of_event (s := { s with IN := x }) hi, .inl rfl⟩
  · obtain ⟨hs, _⟩ := onlyResetLeavesAFinalPhase s (.inr (.inr hp))
    obtain ⟨hx, _⟩ := onlyResetLeavesAFinalPhase { s with IN := x } (.inr (.inr hp))
    exact ⟨_, _, hs hreset, hx hreset, .inr ⟨hp, rfl, rfl⟩⟩

end Sys2Proof.Machine
end

