-- ==== Sys2Proof/Proofs/ErrorEntry.lean ====
section
/-! PROOFS. What the entry on an error changes (60_exceptions R296 to R298): over the ways an instruction and a host
event can end, an error phase is reached by `runError`, `inputError` or `decodeError` only. -/

namespace Sys2Proof.Machine

section
variable {s t : State}

/-- An instruction that ends in `RUN_ERR` has entered a run-time error, and an input instruction alone may have drawn
the free content of `IN` with it (44_io R266). -/
theorem InstrEffect.enters_error {i : Instr} (he : InstrEffect s i t) (hp : s.phase = .run) (ht : t.phase = .runErr) :
    ∃ k, isRunKind k ∧ (t = runError k s ∨ takesInput i ∧ t = inputError k s) := by
  cases he with
  | error hk => exact ⟨_, hk, .inl rfl⟩
  | errorOnInput hi hk => exact ⟨_, hk, .inr ⟨hi, rfl⟩⟩
  | endProg => cases ht
  | _ => exact absurd (hp.symm.trans ht) (by decide)

/-- A host event that ends in `DECODE_ERR` has entered a decode error at the byte it read, with that byte counted
(31_decoder_fsm R121). -/
theorem EventEffect.enters_error {e : HostEvent} (he : EventEffect s e t) (hp : s.phase = .decode)
    (ht : t.phase = .decodeErr) :
    ∃ k d, isDecodeKind k ∧ d = { s.D with offset := d.offset, cr := d.cr } ∧
      t = decodeError k s.D.offset { s with D := d } := by
  cases he with
  | badByte _ hk => exact ⟨_, _, hk, rfl, rfl⟩
  | badEof _ _ => exact ⟨.unexpectedEOF, s.D, by decide, rfl, rfl⟩
  | eof _ _ | start _ | reset => cases ht
  | _ => exact absurd (hp.symm.trans ht) (by decide)

end

/-- Settles O28: the two entries write the error registers, and the one that draws an input writes `IN` besides. -/
theorem runErrorsArePrecise : Obligations.RunErrorsArePrecise := by
  intro i s t hp h ht
  obtain ⟨k, hk, rfl | ⟨hi, rfl⟩⟩ := (exec_effect h).enters_error hp ht
  · exact ⟨hk, rfl, fun _ _ => rfl⟩
  · exact ⟨hk, rfl, fun hchar hnum => absurd hi (not_or.mpr ⟨hchar, hnum⟩)⟩

/-- Settles O26: the step that fails is the instruction at `pc`, and O28 says what that has changed. -/
theorem runErrorEntry : Obligations.RunErrorEntry := by
  intro s t hinbox hp h ht
  rw [step_of_running hinbox hp] at h
  cases hi : s.P[s.pc]? with
  | none =>
    rw [vmStep_of_length_le (List.getElem?_eq_none_iff.mp hi)] at h
    cases h
    cases ht
  | some i =>
    rw [vmStep_of_instr hi] at h
    obtain ⟨hk, heq, hexact⟩ := runErrorsArePrecise i s t hp h ht
    refine ⟨hk, heq, fun hchar hnum => ?_⟩
    rw [hexact (fun hi' => hchar (congrArg some hi')) (fun hi' => hnum (congrArg some hi'))]
    exact ⟨rfl, rfl⟩

/-- Settles O27: the step that fails has taken a host event, a byte or the end of the source stream. -/
theorem decodeErrorEntry : Obligations.DecodeErrorEntry := by
  intro s t hp h ht
  cases hi : s.inbox with
  | nil =>
    rw [step_of_idle hi (by simp [hp])] at h
    cases h
    exact absurd (hp.symm.trans ht) (by decide)
  | cons e rest =>
    rw [step_of_event hi] at h
    obtain ⟨k, d, hk, hd, rfl⟩ := (hostEvent_effect h).enters_error hp ht
    refine ⟨hk, ?_⟩
    rw [decodeError_D, List.tail_cons, ← hd]
    rfl

end Sys2Proof.Machine
end

