-- ==== Sys2Proof/Proofs/ErrorCauses.lean ====
section
/-! PROOFS. Which errors an instruction can raise and when (60_exceptions R281, R288, R299). An instruction's branches
are read once, for the errors in them: each `StackUnderflow` stands where the stack is too short, every other kind where
the table lists the instruction. The other direction, and the order of the conditions, are the laws of the families. -/

namespace Sys2Proof.Machine

/-- A kind an instruction may raise in a state: `StackUnderflow` where the stack is too short, or another that R281's
table lists it for. -/
inductive MayRaise (i : Instr) (s : State) : ErrKind → Prop
  | underflow (hlen : s.S.length < stackReads i) : MayRaise i s .stackUnderflow
  | listed {k} (hk : k ≠ .stackUnderflow) (hi : i.opcode ∈ raisedBy k) : MayRaise i s k

/-- Where a result is in `RUN_ERR`, the instruction may raise the error in it. -/
def RaisesListed (i : Instr) (s : State) (r : Result) : Prop :=
  ∀ t, r = .next t → t.phase = .runErr → MayRaise i s t.err

section
variable {i : Instr} {s t : State} {k : ErrKind}

theorem RaisesListed.next (ht : t.phase ≠ .runErr) : RaisesListed i s (.next t) := by
  rintro _ ⟨⟩ hrun
  exact absurd hrun ht

theorem RaisesListed.raise (hk : MayRaise i s k) : RaisesListed i s (raise k s) := by
  rintro _ ⟨⟩ _
  exact hk

theorem RaisesListed.raiseInput (hk : MayRaise i s k) : RaisesListed i s (raiseInput k s) := by
  rintro _ ⟨⟩ _
  exact hk

theorem RaisesListed.ite {p : Prop} [Decidable p] {a b : Result} (ha : p → RaisesListed i s a)
    (hb : ¬ p → RaisesListed i s b) : RaisesListed i s (if p then a else b) := by
  split_ifs with h
  · exact ha h
  · exact hb h

/-- Every instruction that reads the operand stack is listed for `StackUnderflow`. -/
theorem opcode_mem_raisedBy_stackUnderflow (h : 0 < stackReads i) : i.opcode ∈ raisedBy .stackUnderflow := by
  cases i with
  | push | mark | call | jump | ret | endProg => exact absurd h (Nat.lt_irrefl 0)
  | _ => simp [Instr.opcode, raisedBy]

/-! ### The operations the instructions share -/

section
variable (hrun : s.phase ≠ .runErr)
include hrun

theorem pushWord_raisesListed {v : Int} (hi : i.opcode ∈ raisedBy .stackOverflow) :
    RaisesListed i s (pushWord v s) :=
  .ite (fun _ => .raise (.listed (by decide) hi)) fun _ => .next hrun

theorem binary_raisesListed {f : Int → Int → Word} (hi : stackReads i = 2) : RaisesListed i s (binary f s) := by
  unfold binary
  split
  · exact .raise (.underflow (hi ▸ pop2_eq_none.mp ‹_›))
  · exact .next hrun

theorem dividing_raisesListed {f : Int → Int → Word} (hi : stackReads i = 2)
    (hzero : i.opcode ∈ raisedBy .divisionByZero) : RaisesListed i s (dividing f s) := by
  unfold dividing
  split
  · exact .raise (.underflow (hi ▸ pop2_eq_none.mp ‹_›))
  · exact .ite (fun _ => .raise (.listed (by decide) hzero)) fun _ => .next hrun

theorem jumpIf_raisesListed {test : Int → Bool} {l : Int} (hi : stackReads i = 1)
    (hlabel : i.opcode ∈ raisedBy .unresolvedLabel) : RaisesListed i s (jumpIf test l s) := by
  have hunresolved : RaisesListed i s (Machine.raise .unresolvedLabel s) := .raise (.listed (by decide) hlabel)
  unfold jumpIf
  split
  · exact .raise (.underflow (hi ▸ pop1_eq_none.mp ‹_›))
  · split
    · exact .next hrun
    · exact hunresolved
    · exact hunresolved
    · exact .next hrun
    · exact .next hrun

theorem output_raisesListed {text : Int → List Int} (hi : stackReads i = 1) : RaisesListed i s (output text s) := by
  unfold output
  split
  · exact .raise (.underflow (hi ▸ pop1_eq_none.mp ‹_›))
  · exact .next hrun

theorem storeInput_raisesListed {v : Int} {rest : List Nat} (hi : stackReads i = 1)
    (hheap : i.opcode ∈ raisedBy .heapCapacity) : RaisesListed i s (storeInput v rest s) := by
  unfold storeInput
  split
  · exact .raiseInput (.underflow (hi ▸ pop1_eq_none.mp ‹_›))
  · split
    · exact .raiseInput (.listed (by decide) hheap)
    · exact .next hrun

/-! ### The instructions -/

theorem execDuplicate_raisesListed : RaisesListed .duplicate s (execDuplicate s) := by
  unfold execDuplicate
  split
  · exact .raise (.underflow (atDepth_eq_none.mp ‹_›))
  · exact pushWord_raisesListed hrun (by decide)

theorem execCopy_raisesListed {n : Int} : RaisesListed (.copy n) s (execCopy n s) := by
  refine .ite (fun _ => .raise (.listed (by decide) (by simp [Instr.opcode, raisedBy]))) fun hn => ?_
  have hreads : stackReads (.copy n) = n.toNat + 1 := if_neg hn
  split
  · exact .raise (.underflow (hreads ▸ atDepth_eq_none.mp ‹_›))
  · exact pushWord_raisesListed hrun (by simp [Instr.opcode, raisedBy])

theorem execSwap_raisesListed : RaisesListed .swap s (execSwap s) := by
  unfold execSwap
  split
  · exact .raise (.underflow (pop2_eq_none.mp ‹_›))
  · exact .next hrun

theorem execDiscard_raisesListed : RaisesListed .discard s (execDiscard s) := by
  unfold execDiscard
  split
  · exact .raise (.underflow (pop1_eq_none.mp ‹_›))
  · exact .next hrun

theorem execSlide_raisesListed {n : Int} : RaisesListed (.slide n) s (execSlide n s) := by
  refine .ite (fun _ => .raise (.listed (by decide) (by simp [Instr.opcode, raisedBy]))) fun hn => ?_
  have hreads : stackReads (.slide n) = n.toNat + 1 := if_neg hn
  split
  · exact .raise (.underflow (hreads ▸ slideBy_eq_none.mp ‹_›))
  · exact .next hrun

theorem execStore_raisesListed : RaisesListed .store s (execStore s) := by
  unfold execStore
  split
  · exact .raise (.underflow (pop2_eq_none.mp ‹_›))
  · split
    · exact .raise (.listed (by decide) (by decide))
    · exact .next hrun

theorem execRetrieve_raisesListed : RaisesListed .retrieve s (execRetrieve s) := by
  unfold execRetrieve
  split
  · exact .raise (.underflow (pop1_eq_none.mp ‹_›))
  · split
    · exact .raise (.listed (by decide) (by decide))
    · exact .next hrun

theorem execCall_raisesListed {l : Int} : RaisesListed (.call l) s (execCall l s) := by
  refine .ite (fun _ => .raise (.listed (by decide) (by simp [Instr.opcode, raisedBy]))) fun _ => ?_
  split
  · exact .raise (.listed (by decide) (by simp [Instr.opcode, raisedBy]))
  · exact .next hrun

theorem execJump_raisesListed {l : Int} : RaisesListed (.jump l) s (execJump l s) := by
  unfold execJump
  split
  · exact .raise (.listed (by decide) (by simp [Instr.opcode, raisedBy]))
  · exact .next hrun

theorem execRet_raisesListed : RaisesListed .ret s (execRet s) := by
  unfold execRet
  split
  · exact .raise (.listed (by decide) (by decide))
  · exact .next hrun

theorem execInChar_raisesListed : RaisesListed .inChar s (execInChar s) := by
  unfold execInChar
  split
  · exact .ite (fun _ => .raiseInput (.listed (by decide) (by decide))) fun _ => .next hrun
  · exact storeInput_raisesListed hrun rfl (by decide)

theorem execInNum_raisesListed : RaisesListed .inNum s (execInNum s) := by
  unfold execInNum
  split
  · exact .ite (fun _ => .raiseInput (.listed (by decide) (by decide))) fun _ => .next hrun
  · split
    · exact .raiseInput (.listed (by decide) (by decide))
    · exact .ite (fun _ => storeInput_raisesListed hrun rfl (by decide))
        fun _ => .raiseInput (.listed (by decide) (by decide))

/-- Every instruction raises what it may raise. -/
theorem exec_raisesListed (i : Instr) : RaisesListed i s (exec i s) := by
  cases i with
  | push n => exact pushWord_raisesListed hrun (by simp [Instr.opcode, raisedBy])
  | duplicate => exact execDuplicate_raisesListed hrun
  | copy n => exact execCopy_raisesListed hrun
  | swap => exact execSwap_raisesListed hrun
  | discard => exact execDiscard_raisesListed hrun
  | slide n => exact execSlide_raisesListed hrun
  | add | sub | mul => exact binary_raisesListed hrun rfl
  | div | mod => exact dividing_raisesListed hrun rfl (by decide)
  | store => exact execStore_raisesListed hrun
  | retrieve => exact execRetrieve_raisesListed hrun
  | mark l => exact .next hrun
  | call l => exact execCall_raisesListed hrun
  | jump l => exact execJump_raisesListed hrun
  | jumpIfZero l | jumpIfNegative l =>
    exact jumpIf_raisesListed hrun rfl (by simp [Instr.opcode, raisedBy])
  | ret => exact execRet_raisesListed hrun
  | endProg => exact .next (by simp)
  | outChar | outNum => exact output_raisesListed hrun rfl
  | inChar => exact execInChar_raisesListed hrun
  | inNum => exact execInNum_raisesListed hrun

end

theorem mayRaise_of_exec (hp : s.phase = .run) (h : exec i s = .next t) (ht : t.phase = .runErr) :
    MayRaise i s t.err :=
  exec_raisesListed (by simp [hp]) i t h ht

theorem MayRaise.opcode_mem_raisedBy (h : MayRaise i s k) : i.opcode ∈ raisedBy k := by
  cases h with
  | underflow hlen => exact opcode_mem_raisedBy_stackUnderflow (Nat.zero_lt_of_lt hlen)
  | listed _ hi => exact hi

theorem MayRaise.length_lt (h : MayRaise i s .stackUnderflow) : s.S.length < stackReads i := by
  cases h with
  | underflow hlen => exact hlen
  | listed hk _ => exact absurd rfl hk

/-! ### `StackUnderflow` on a stack that is too short -/

theorem eq_nil_of_length_lt_one {α : Type} {q : List α} (h : q.length < 1) : q = [] :=
  List.length_eq_zero_iff.mp (Nat.lt_one_iff.mp h)

/-- What `Copy` and `Slide` read: a stack too short for it has an operand that is a depth (60_exceptions R289). -/
theorem exists_depth_of_lt {n : Int} {len : Nat} (h : len < if n < 0 then 0 else n.toNat + 1) :
    ∃ m : Nat, n = m ∧ len < m + 1 := by
  split_ifs at h with hn
  · exact absurd h (Nat.not_lt_zero len)
  · exact ⟨n.toNat, (Int.toNat_of_nonneg (not_lt.mp hn)).symm, h⟩

/-- An instruction that needs no input raises `StackUnderflow` whenever the stack is too short for it. -/
theorem exec_of_length_lt (hi : ¬ takesInput i) (h : s.S.length < stackReads i) :
    exec i s = .next (runError .stackUnderflow s) := by
  cases i with
  | push | mark | call | jump | ret | endProg => exact absurd h (Nat.not_lt_zero _)
  | duplicate => exact exec_duplicate_of_nil (eq_nil_of_length_lt_one h)
  | copy n =>
    obtain ⟨m, rfl, hm⟩ := exists_depth_of_lt h
    exact exec_copy_of_length_le (Nat.le_of_lt_succ hm)
  | swap => exact exec_swap_of_length_lt h
  | discard => exact exec_discard_of_nil (eq_nil_of_length_lt_one h)
  | slide n =>
    obtain ⟨m, rfl, hm⟩ := exists_depth_of_lt h
    exact exec_slide_of_length_lt hm
  | add | sub | mul => exact binary_of_length_lt h
  | div | mod => exact dividing_of_length_lt h
  | store => exact exec_store_of_length_lt h
  | retrieve => exact exec_retrieve_of_nil (eq_nil_of_length_lt_one h)
  | jumpIfZero | jumpIfNegative => exact jumpIf_of_nil (eq_nil_of_length_lt_one h)
  | outChar | outNum => exact output_of_nil (eq_nil_of_length_lt_one h)
  | inChar => exact absurd (.inl rfl) hi
  | inNum => exact absurd (.inr rfl) hi

/-- With a character at hand `InChar` wants its address (44_io R262). -/
theorem exec_inChar_of_nil (hS : s.S = []) (hIN : s.IN.chars ≠ []) :
    exec .inChar s = .next (inputError .stackUnderflow s) := by
  obtain ⟨ch, rest, hchars⟩ := List.exists_cons_of_ne_nil hIN
  exact (exec_inChar_of_char hchars).trans (storeInput_of_nil hS)

/-- With a line that denotes a word at hand `InNum` wants its address (44_io R263). -/
theorem exec_inNum_of_nil {line rest : List Nat} {n : Int} (hS : s.S = []) (hIN : s.IN.chars = line ++ 10 :: rest)
    (hline : 10 ∉ line) (hn : lineDenotes line n) (hw : isWord s.cfg.W n) :
    exec .inNum s = .next (inputError .stackUnderflow s) :=
  (exec_inNum_of_isWord hIN hline hn hw).trans (storeInput_of_nil hS)

/-! ### The decoder's order -/

/-- The terminator of an operand that is no word is refused whatever the capacities (60_exceptions R299). -/
theorem byte_of_operandRange {c : Config} {f : Front} {op : Opcode} (hstage : f.D.stage = .bits)
    (hop : f.D.op = some op) (hnum : op.isNumber = true) (hcr : f.D.cr = false)
    (hw : ¬ isWord c.W (operandValue f.D.neg f.D.mag)) :
    f.byte c 0x0A = .error .operandRange f.D.offset { f with D := (f.D.take c 0x0A).1 } := by
  have htake : f.D.take c 0x0A = ({ f.D with offset := f.D.offset + 1 }, some .L) := take_symByte hcr .L
  obtain ⟨_, _, hterminator⟩ := symbol_of_bits (c := c) (d := { f.D with offset := f.D.offset + 1 }) hstage hop
  obtain ⟨_, _, herror⟩ := byte_of_symbol (f := f) htake
  rw [herror .operandRange (hterminator.trans (finishOperand_error hnum hw)), htake]

end

/-- Settles O29: a stack too short for the instruction makes it raise, by the laws of the families, and an instruction
that raises `StackUnderflow` does so in a branch where the stack is too short. -/
theorem underflowExactlyWhenTooFewValues : Obligations.UnderflowExactlyWhenTooFewValues :=
  ⟨fun _ _ hchar hnum => exec_of_length_lt (not_or.mpr ⟨hchar, hnum⟩),
    fun _ hlen => exec_inChar_of_nil (eq_nil_of_length_lt_one hlen),
    fun _ _ _ _ hlen => exec_inNum_of_nil (eq_nil_of_length_lt_one hlen),
    fun _ _ _ hp h ht hunder => (hunder ▸ mayRaise_of_exec hp h ht).length_lt⟩

/-- Settles O30: in each row the law for the condition reported does not ask for the other one to fail. -/
theorem errorPriority : Obligations.ErrorPriority := by
  refine fun s => ⟨fun hS => ?_, fun n hn _ => ⟨exec_copy_of_neg hn, exec_slide_of_neg hn⟩,
    fun _ => ⟨exec_duplicate_of_nil, fun n => exec_copy_of_length_le⟩, fun l hfull _ => exec_call_of_not_hasRoom hfull,
    fun l hS _ => ⟨jumpIf_of_nil hS, jumpIf_of_nil hS⟩, fun hIN _ => ?_,
    fun line rest hIN hline hno _ => exec_inNum_of_no_number hIN hline hno,
    fun _ => ⟨exec_store_of_length_lt, exec_inChar_of_nil, fun line rest n => exec_inNum_of_nil⟩,
    fun c f op hstage hop hnum hcr hw _ => byte_of_operandRange hstage hop hnum hcr hw⟩
  · have hlen : s.S.length < 2 := by simp [hS]
    exact ⟨dividing_of_length_lt hlen, dividing_of_length_lt hlen⟩
  · have hchars : s.IN.chars = [] := congrArg InStream.chars hIN
    have hended : s.IN.ended = true := congrArg InStream.ended hIN
    exact ⟨exec_inChar_of_exhausted hchars hended, exec_inNum_of_exhausted (by simp [hchars]) hended⟩

/-- Settles O31: the codes by evaluation; what an instruction raises it may raise, and that the table lists. -/
theorem errorCodesAndTheirRaisers : Obligations.ErrorCodesAndTheirRaisers :=
  ⟨rfl, rfl, fun _ _ _ hp h ht => (mayRaise_of_exec hp h ht).opcode_mem_raisedBy⟩

end Sys2Proof.Machine
end

