-- ==== Sys2Proof/Proofs/ResetValues.lean ====
section
/-! PROOFS. The values after reset (70_reset_and_hazards R330, R331), whatever the phase the reset is taken in. -/

namespace Sys2Proof.Machine

/-- A reset event leaves the reset state of the parameters, with the host's later events and the model's count of free
values as they were. -/
theorem step_of_reset {s : State} {rest : List HostEvent} (hi : s.inbox = .reset :: rest) :
    step s = .next { State.resetWith s.cfg with inbox := rest, freeDraws := s.freeDraws } :=
  step_of_event hi

/-- Settles O50: both states are the reset state of some parameters, and none of the values depends on those. -/
theorem resetLeavesTheStatedValues : Obligations.ResetLeavesTheStatedValues := by
  intro t ht
  obtain ⟨c, inbox, draws, rfl⟩ :
      ∃ c inbox draws, t = { State.resetWith c with inbox := inbox, freeDraws := draws } := by
    rcases ht with rfl | ⟨s, rest, hi, h⟩
    · exact ⟨Config.standard, [], 0, rfl⟩
    · exact ⟨s.cfg, rest, s.freeDraws, Host.Outcome.next.inj (h.symm.trans (step_of_reset hi))⟩
  exact ⟨rfl, rfl, rfl, fun _ => rfl, rfl, fun _ => rfl, rfl, rfl, rfl, rfl, rfl, rfl, rfl, rfl, rfl, rfl, rfl, rfl,
    rfl, rfl, rfl, rfl⟩

end Sys2Proof.Machine
end
